-- ==== Sys2Proof/Word.lean ====
section
/-! DEFINITION. Word.lean: the machine word, the byte and the register index (00_scope.md R3, 10_state.md R23). -/

namespace Sys2Proof

/-- The machine word: a frame slot, a memory word, an address, an operand, an instruction word.
R3: `XLEN` = 32, all arithmetic modulo 2^32 (log 2). -/
abbrev Word := BitVec 32

/-- One byte of memory, the unit of the address space (R37). -/
abbrev Byte := BitVec 8

/-- A frame slot's index. R23: five bits, so every index names a slot and no check exists. -/
abbrev Reg := Fin 32

end Sys2Proof
end

