-- ==== Sys2Proof/Syntax.lean ====
section
/-! DEFINITION. Syntax.lean: the eleven instructions, one constructor a row of spec/opcode_table.json. -/

namespace Sys2Proof

/-- The bits of an instruction word that no part of the block examines (R63): `aq` (bit 26), `rl` (bit 25),
`funct3` (bits 14:12). The syntax keeps them, so that a word and its instruction determine each other (log 20). -/
structure Unexamined where
  aq : Bool
  rl : Bool
  funct3 : BitVec 3
  deriving DecidableEq, Repr

/-- An instruction (R1, R60, R68): every operand is a register, in the order `rd`, `rs1`, `rs2`.
`lr.w` carries the `rs2` field too, which R63 says is not read. -/
inductive Instr where
  | lrW (rd rs1 rs2 : Reg) (u : Unexamined)
  | scW (rd rs1 rs2 : Reg) (u : Unexamined)
  | amoswapW (rd rs1 rs2 : Reg) (u : Unexamined)
  | amoaddW (rd rs1 rs2 : Reg) (u : Unexamined)
  | amoxorW (rd rs1 rs2 : Reg) (u : Unexamined)
  | amoandW (rd rs1 rs2 : Reg) (u : Unexamined)
  | amoorW (rd rs1 rs2 : Reg) (u : Unexamined)
  | amominW (rd rs1 rs2 : Reg) (u : Unexamined)
  | amomaxW (rd rs1 rs2 : Reg) (u : Unexamined)
  | amominuW (rd rs1 rs2 : Reg) (u : Unexamined)
  | amomaxuW (rd rs1 rs2 : Reg) (u : Unexamined)
  deriving DecidableEq, Repr

end Sys2Proof
end

