-- ==== Sys2Proof/WellFormed.lean ====
section
/-! DEFINITION. WellFormed.lean: the written form of an instruction (30_encoding.md section 7).
Register numbers are in range by their type (R23). R63 and R66 make no term of Instr illegal for the block, so
decoding and execution never ask for these checks; they say which terms the spec's own encoder produces (log 24). -/

namespace Sys2Proof

/-- The unexamined bits of an instruction. -/
def Instr.unexamined : Instr → Unexamined
  | .lrW _ _ _ u => u
  | .scW _ _ _ u => u
  | .amoswapW _ _ _ u => u
  | .amoaddW _ _ _ u => u
  | .amoxorW _ _ _ u => u
  | .amoandW _ _ _ u => u
  | .amoorW _ _ _ u => u
  | .amominW _ _ _ u => u
  | .amomaxW _ _ _ u => u
  | .amominuW _ _ _ u => u
  | .amomaxuW _ _ _ u => u

/-- 30_encoding.md section 7: the encoder writes `funct3 = 0b010`, the word width. -/
def Instr.wordWidth (i : Instr) : Bool := i.unexamined.funct3 == 0b010#3

/-- 30_encoding.md section 7: "with rs2 = 0 for lr.w". -/
def Instr.lrSourceZero : Instr → Bool
  | .lrW _ _ rs2 _ => rs2 == 0
  | .scW .. => true
  | .amoswapW .. => true
  | .amoaddW .. => true
  | .amoxorW .. => true
  | .amoandW .. => true
  | .amoorW .. => true
  | .amominW .. => true
  | .amomaxW .. => true
  | .amominuW .. => true
  | .amomaxuW .. => true

/-- The instruction is one that the spec's encoder writes: word width, and no second source for `lr.w`. -/
def Instr.wellFormed (i : Instr) : Bool := i.wordWidth && i.lrSourceZero

end Sys2Proof
end

