-- ==== Sys2Proof/Decode.lean ====
section
/-! DEFINITION. Decode.lean: the Opcode Classifier, the Field Extractor, the selector map, and the encoder
(30_encoding.md R60 to R68). -/

namespace Sys2Proof

/-- R61: the major opcode of the atomic class (UNVERIFIED, the spec's D2; log 1). -/
def atomicOpcode : BitVec 7 := 0b0101111#7

/-- R61: `is_atomic(w)`, the block's auxiliary output (R33). It looks at the low seven bits only. -/
def isAtomic (w : Word) : Bool := w.extractLsb' 0 7 == atomicOpcode

/-- R62: the operation selector, bits 31:27. -/
def selectorField (w : Word) : BitVec 5 := w.extractLsb' 27 5

/-- R62: `rd`, bits 11:7. -/
def rdField (w : Word) : Reg := (w.extractLsb' 7 5).toFin

/-- R62: `rs1`, bits 19:15. -/
def rs1Field (w : Word) : Reg := (w.extractLsb' 15 5).toFin

/-- R62: `rs2`, bits 24:20. -/
def rs2Field (w : Word) : Reg := (w.extractLsb' 20 5).toFin

/-- R60: `aq` bit 26, `rl` bit 25, `funct3` bits 14:12; carried, never examined (R63). -/
def unexaminedField (w : Word) : Unexamined :=
  { aq := w.getLsbD 26, rl := w.getLsbD 25, funct3 := w.extractLsb' 12 3 }

/-- R64: the selector map (values UNVERIFIED, the spec's D3; log 1). -/
def selectorMap : List (BitVec 5 × (Reg → Reg → Reg → Unexamined → Instr)) :=
  [ (0b00010#5, .lrW),
    (0b00011#5, .scW),
    (0b00001#5, .amoswapW),
    (0b00000#5, .amoaddW),
    (0b00100#5, .amoxorW),
    (0b01100#5, .amoandW),
    (0b01000#5, .amoorW),
    (0b10000#5, .amominW),
    (0b10100#5, .amomaxW),
    (0b11000#5, .amominuW),
    (0b11100#5, .amomaxuW) ]

/-- Why the decoder reads no instruction: R121 (class 1 of R66), R122 (class 2 of R66), or fewer than four bytes. -/
inductive Decline where
  | notAtomic
  | unknownSelector (sel : BitVec 5)
  | truncated
  deriving DecidableEq, Repr

/-- R120, the steps from classification to dispatch: the instruction a word selects, or why it is declined. -/
def decodeWord (w : Word) : Except Decline Instr :=
  if isAtomic w then
    match selectorMap.lookup (selectorField w) with
    | some op => .ok (op (rdField w) (rs1Field w) (rs2Field w) (unexaminedField w))
    | none => .error (.unknownSelector (selectorField w))
  else .error .notAtomic

/-- Four bytes, the lowest-addressed first, as a word: little-endian (R40). -/
def wordOfBytes (b0 b1 b2 b3 : Byte) : Word := b3 ++ b2 ++ b1 ++ b0

/-- R41: byte `k` of a word, the byte that stands at address `addr + k`. -/
def byteOfWord (v : Word) (k : Nat) : Byte := v.extractLsb' (8 * k) 8

/-- Decoding from bytes as they lie in memory: the instruction and the bytes after it. -/
def decodeBytes : List Byte → Except Decline (Instr × List Byte)
  | b0 :: b1 :: b2 :: b3 :: rest =>
    match decodeWord (wordOfBytes b0 b1 b2 b3) with
    | .ok i => .ok (i, rest)
    | .error e => .error e
  | _ => .error .truncated

/-- The word that the host numbers as the opcode table does: `nbits` bits given, the bits above them zero. -/
def tableWord (nbits w : Nat) : Word := BitVec.ofNat 32 (w % 2 ^ nbits)

/-- The instruction the decoder reads from such a word, laid out as the hardware stores it. -/
def decodeTableWord (nbits w : Nat) : Option Instr :=
  let v := tableWord nbits w
  match decodeBytes [byteOfWord v 0, byteOfWord v 1, byteOfWord v 2, byteOfWord v 3] with
  | .ok (i, _) => some i
  | .error _ => none

/-- R64, read the other way: the selector of an instruction. -/
def Instr.selector : Instr → BitVec 5
  | .lrW .. => 0b00010#5
  | .scW .. => 0b00011#5
  | .amoswapW .. => 0b00001#5
  | .amoaddW .. => 0b00000#5
  | .amoxorW .. => 0b00100#5
  | .amoandW .. => 0b01100#5
  | .amoorW .. => 0b01000#5
  | .amominW .. => 0b10000#5
  | .amomaxW .. => 0b10100#5
  | .amominuW .. => 0b11000#5
  | .amomaxuW .. => 0b11100#5

/-- The register operands `(rd, rs1, rs2)` of an instruction. -/
def Instr.operands : Instr → Reg × Reg × Reg
  | .lrW rd rs1 rs2 _ => (rd, rs1, rs2)
  | .scW rd rs1 rs2 _ => (rd, rs1, rs2)
  | .amoswapW rd rs1 rs2 _ => (rd, rs1, rs2)
  | .amoaddW rd rs1 rs2 _ => (rd, rs1, rs2)
  | .amoxorW rd rs1 rs2 _ => (rd, rs1, rs2)
  | .amoandW rd rs1 rs2 _ => (rd, rs1, rs2)
  | .amoorW rd rs1 rs2 _ => (rd, rs1, rs2)
  | .amominW rd rs1 rs2 _ => (rd, rs1, rs2)
  | .amomaxW rd rs1 rs2 _ => (rd, rs1, rs2)
  | .amominuW rd rs1 rs2 _ => (rd, rs1, rs2)
  | .amomaxuW rd rs1 rs2 _ => (rd, rs1, rs2)

/-- R60: a word put together from its eight fields, the selector highest. -/
def assemble (sel : BitVec 5) (u : Unexamined) (rs2 rs1 rd : Reg) (opcode : BitVec 7) : Word :=
  sel ++ BitVec.ofBool u.aq ++ BitVec.ofBool u.rl ++ (BitVec.ofFin rs2 : BitVec 5) ++ (BitVec.ofFin rs1 : BitVec 5)
    ++ u.funct3 ++ (BitVec.ofFin rd : BitVec 5) ++ opcode

/-- 30_encoding.md section 7: the word of an instruction. -/
def encode (i : Instr) : Word :=
  assemble i.selector i.unexamined i.operands.2.2 i.operands.2.1 i.operands.1 atomicOpcode

end Sys2Proof
end

