-- ==== Sys2Proof/Config.lean ====
section
/-! DEFINITION. Config.lean: what is fixed for the machine, and the free values.
The open parameters MemValid, NUM_CONTEXTS and OnDecline are data of State (logs 6, 14, 19). -/

namespace Sys2Proof.Config

/-- What a byte of memory reads as that `Memory` does not list. DESIGN CHOICE, unsafe (log 7): the spec gives
no contents (R151); 0x00 is the convention of 95_test_vectors.md section 1. -/
def unlistedByte : Byte := 0x00#8

/-- Bytes of the caller's in-memory copy of the frame: 32 slots of 4 bytes (R20, R38). -/
def frameBytes : Nat := 128

/-- FREE VALUE, safe (log 13): what the `n`-th read of a device address returns.
U17 of 93_implementation_defined.md: "any value" from the memory port. No body, so nothing can evaluate it. -/
opaque deviceWord : Nat → Word

end Sys2Proof.Config
end

