-- ==== Sys2Proof/Machine/State.lean ====
section
/-! DEFINITION. Machine/State.lean: all state the spec gives the machine, as plain data, the reasons a step can stop, and reset. -/

namespace Sys2Proof.Machine

/-- Direction of a memory-port access (00_scope.md section 3, the `dir` of MemValid). -/
inductive Dir where
  | read
  | write
  deriving DecidableEq, Repr

/-- The two kinds of failed access (R130, R42, R43). -/
inductive FaultKind where
  | accessFault
  | misalignedData
  deriving DecidableEq, Repr

/-- What the response port answers (R32, R130). `fault` carries the address of the access that failed (R132). -/
inductive Response where
  | handled
  | declined
  | fault (kind : FaultKind) (addr : Word)
  deriving DecidableEq, Repr

/-- One memory-port access of the block, as R46 lists them. A failed access is listed too; it changed nothing. -/
inductive Access where
  | read (addr : Word)
  | write (addr value : Word)
  deriving DecidableEq, Repr

/-- One byte that the host core or another agent stores (R53, R56, D29). -/
structure Store where
  addr : Word
  byte : Byte
  deriving DecidableEq, Repr

/-- Stores of other agents that land together, in order. -/
abbrev Batch := List Store

/-- One row of the platform's MemValid (R43, R50, D19): the access addresses `base ≤ a < base + size` with the
directions accepted there. `device` marks addresses whose reads have effects the block does not know (R49, U17). -/
structure Region where
  base : Nat
  size : Nat
  readable : Bool
  writable : Bool
  device : Bool
  deriving DecidableEq, Repr

/-- The two shapes of a request (R31). -/
inductive Entry where
  | word (w : Word)
  | pc (p : Word)
  deriving DecidableEq, Repr

/-- A request as the outside issues it: its shape; what other agents store while it runs, batch `k` landing just
before its access `k`, the rest after its last access (R48, R53, D29; log 12); and the requests of the same context
that are issued while it is in progress, which break the contract (R135 item 3; log 17). -/
structure Request where
  entry : Entry
  during : List Batch
  nested : List Entry
  deriving DecidableEq, Repr

/-- What the outside can do to the machine, one a step (log 10).
`reset`: the reset input (R36, R150). `request`: R31. `trap`: the caller has taken the trap, saved the registers
into the frame, and holds its in-memory copy, if it has one, at `copyAt` (R134, R38). `resume`: the caller ends the
trap (R124, R136). `store`: the host core or another agent stores (R56). `switch k`: the `k`-th parked execution
context acts from here on (R28, R140). -/
inductive Input where
  | reset
  | request (r : Request)
  | trap (regs : Vector Word 32) (pc : Word) (copyAt : Option Word)
  | resume
  | store (b : Batch)
  | switch (k : Nat)
  deriving DecidableEq, Repr

/-- What one execution context owns (R20, R24, R28, R30, R32, R134). -/
structure Context where
  /-- The register frame `x[0]` to `x[31]` (R20). -/
  frame : Vector Word 32
  /-- The reservation register: `none` is `Free`, `some a` is `Reserved(a)` (R24, R25). -/
  resv : Option Word
  /-- Which reservation register the context is wired to (R28, R135 item 4). -/
  resvId : Nat
  /-- Where the caller's in-memory copy of the frame stands, if there is one (R38); it counts until the next trap input says
  otherwise (DESIGN CHOICE, log 30). -/
  frameCopy : Option Word
  /-- The trapped context's registers as the host holds them (R134, R136). -/
  regs : Vector Word 32
  /-- The caller's resuming program counter (R30, R124). -/
  resumePc : Word
  /-- The response port: the outcome of the last request, until the caller ends the trap (R32). -/
  response : Option Response
  deriving DecidableEq, Repr

/-- Memory: address and byte, addresses rising, no byte listed that an unlisted address reads as (R37). -/
abbrev Memory := List Host.Cell

/-- The machine: the context that acts, the others, the platform, and what the outside has in store. -/
structure State where
  /-- The execution context that acts. -/
  ctx : Context
  /-- The other execution contexts (R28, R140; D16). -/
  parked : List Context
  /-- The one address space (R37). -/
  mem : Memory
  /-- The platform's MemValid (R43, R50). -/
  memMap : List Region
  /-- The host parameter OnDecline: where the host goes on after `Declined` (R136, D18). -/
  onDecline : Word
  /-- The inputs still to come, the next one first (R51). -/
  inputs : List Input
  /-- Other agents' stores still to land in the request that runs (R53). -/
  during : List Batch
  /-- The memory-port accesses of the last request, in order (R46). -/
  accesses : List Access
  /-- The model's own: how many free values device reads have drawn (U17; log 13). -/
  draws : Nat
  deriving DecidableEq, Repr

/-- The machine itself never stops with a fault: the spec's `Fault(kind, addr)` is an outcome of a request
after which the machine goes on (R130, R132, R137), so it is a next state with a `Response.fault` (log 5). -/
inductive Fault where
  deriving DecidableEq, Repr

/-- Requests and inputs that have no meaning. All are safe: the run stops where the spec gives no outcome. -/
inductive Refusal where
  /-- Raised by an arm of `exec` whose instruction has no meaning yet; safe. There is none. -/
  | notModelled (mnemonic : String)
  /-- Raised by the driver: a PC entry with `pc[0] = 1` (R81, R135 item 1); safe. -/
  | oddPc (pc : Word)
  /-- Raised by every meaning: its data address `addr` overlaps the caller's in-memory frame (R38, R135 item 2); safe. -/
  | frameOverlap (addr : Word)
  /-- Raised by the driver: a request of the same context while this one is in progress (R135 item 3); safe. -/
  | reentry
  /-- Raised by the driver: two execution contexts share a reservation register (R28, R135 item 4); safe. -/
  | sharedReservation
  /-- Raised by the input `switch k` where there is no such execution context (log 14); safe. -/
  | noSuchContext (k : Nat)
  deriving DecidableEq, Repr

/-- The outcome of one step. -/
abbrev Outcome := Host.Outcome State Fault Refusal

/-- A memory-port operation: it completes with a value, or fails; either way other agents' stores may have landed. -/
inductive PortResult (α : Type) where
  | done (x : α) (s : State)
  | failed (kind : FaultKind) (addr : Word) (s : State)

/-- A context right after reset: `Free` (R150); everything else is the caller's (R151; DESIGN CHOICE, logs 8, 9, 14, 15). -/
def Context.reset : Context :=
  { frame := Vector.replicate 32 0#32, resv := none, resvId := 0, frameCopy := none,
    regs := Vector.replicate 32 0#32, resumePc := 0#32, response := none }

/-- The machine right after reset: `resv` is `Free` (R150), no request is there (R152). The platform's part is
environment E1 of 95_test_vectors.md (DESIGN CHOICE, log 6), one context (log 14), nothing in memory (log 7). -/
def State.reset : State :=
  { ctx := Context.reset, parked := [], mem := [],
    memMap := [{ base := 0, size := 4294967296, readable := true, writable := true, device := false }],
    onDecline := 0#32, inputs := [], during := [], accesses := [], draws := 0 }

end Sys2Proof.Machine
end

