-- ==== Sys2Proof/Machine/Ops.lean ====
section
/-! DEFINITION. Machine/Ops.lean: the named operations over memory, the port, the frame, the reservation and the response. -/

namespace Sys2Proof.Machine

/-! ## Memory (R37, R40, R41) -/

/-- The byte `M[a]`. -/
def Memory.get : Memory → Nat → Byte
  | [], _ => Config.unlistedByte
  | (b, v) :: m, a => if a = b then v else Memory.get m a

/-- Memory with the byte `v` at `a`, in canonical form. -/
def Memory.set : Memory → Nat → Byte → Memory
  | [], a, v => if v = Config.unlistedByte then [] else [(a, v)]
  | (b, w) :: m, a, v =>
    if a < b then (if v = Config.unlistedByte then (b, w) :: m else (a, v) :: (b, w) :: m)
    else if a = b then (if v = Config.unlistedByte then m else (a, v) :: m)
    else (b, w) :: Memory.set m a v

/-- The canonical form: addresses below 2^32 and strictly rising, no byte listed that is `unlistedByte`. -/
def Memory.wf : Memory → Bool
  | [] => true
  | (a, v) :: m => decide (a < 4294967296) && decide (v ≠ Config.unlistedByte) && m.all (fun c => a < c.1) && Memory.wf m

/-- `M32[a]` (R40): little-endian, addresses modulo 2^32. -/
def Memory.getWord (m : Memory) (a : Word) : Word :=
  wordOfBytes (m.get a.toNat) (m.get (a + 1#32).toNat) (m.get (a + 2#32).toNat) (m.get (a + 3#32).toNat)

/-- `M32[a] <- v` (R41): four bytes, lowest first. -/
def Memory.setWord (m : Memory) (a v : Word) : Memory :=
  (((m.set a.toNat (byteOfWord v 0)).set (a + 1#32).toNat (byteOfWord v 1)).set (a + 2#32).toNat (byteOfWord v 2)).set
    (a + 3#32).toNat (byteOfWord v 3)

/-- Other agents' stores, in order. -/
def Memory.applyBatch (m : Memory) (b : Batch) : Memory :=
  b.foldl (fun m st => m.set st.addr.toNat st.byte) m

/-- The byte of memory at address `a`, as the machine holds it. -/
def State.byte (s : State) (a : Word) : Byte := s.mem.get a.toNat

/-- `M32[a]` of a state. -/
def State.word (s : State) (a : Word) : Word := s.mem.getWord a

/-! ## The platform (R43, R49, R50) -/

/-- Does the row speak of an access at address `a`? -/
def Region.covers (r : Region) (a : Word) : Bool := decide (r.base ≤ a.toNat) && decide (a.toNat < r.base + r.size)

/-- Does the row accept the direction? -/
def Region.permits (r : Region) : Dir → Bool
  | .read => r.readable
  | .write => r.writable

/-- `MemValid(addr, dir)` (R43, R50). -/
def State.memValid (s : State) (a : Word) (d : Dir) : Bool := s.memMap.any (fun r => r.covers a && r.permits d)

/-- Is `a` an address whose reads the platform answers as a device does (R49, U17)? -/
def State.isDevice (s : State) (a : Word) : Bool := s.memMap.any (fun r => r.covers a && r.device)

/-! ## Other agents (R48, R53, D29) -/

/-- The next batch of other agents' stores lands; nothing lands where none is to come. -/
def State.land (s : State) : State :=
  { s with during := s.during.tail, mem := s.mem.applyBatch (s.during.headD []) }

/-- Every batch still to come lands: the request has made its last access. -/
def State.settle (s : State) : State := { s with during := [], mem := s.during.foldl Memory.applyBatch s.mem }

/-! ## The memory port (R35, R40 to R49) -/

/-- R42: `addr[1:0] != 0`. -/
def misaligned (a : Word) : Bool := a.extractLsb' 0 2 != 0#2

/-- An access is issued: other agents' stores before it land, and the port sees it (R46). -/
def State.issue (s : State) (x : Access) : State := { s.land with accesses := s.accesses ++ [x] }

/-- What the port answers to a read at `a`: a free value at a device address (U17), else the word there (R40). -/
def State.portWord (s : State) (a : Word) : Word := if s.isDevice a then Config.deviceWord s.draws else s.word a

/-- A read at a device address draws a free value. -/
def State.drawn (s : State) (a : Word) : State := { s with draws := if s.isDevice a then s.draws + 1 else s.draws }

/-- `MemRead(addr, 4)`. R42 before R43, as R133 orders them; a failed read changes nothing. -/
def memRead (a : Word) (s : State) : PortResult Word :=
  let t := s.issue (.read a)
  if misaligned a then .failed .misalignedData a t
  else if t.memValid a .read then .done (t.portWord a) (t.drawn a)
  else .failed .accessFault a t

/-- `M32[a] <- v` of a state (R41). -/
def State.putWord (s : State) (a v : Word) : State := { s with mem := s.mem.setWord a v }

/-- `MemWrite(addr, 4, v)`. R42 before R43, as R133 orders them; a failed write changes nothing. -/
def memWrite (a v : Word) (s : State) : PortResult Unit :=
  let t := s.issue (.write a v)
  if misaligned a then .failed .misalignedData a t
  else if t.memValid a .write then .done () (t.putWord a v)
  else .failed .accessFault a t

/-! ## The frame (R20, R22, R34) -/

/-- `x[i]`. R22: slot 0 is an ordinary slot. -/
def State.x (s : State) (i : Reg) : Word := s.ctx.frame[i.val]

/-- `x[i] <- v`. R22: slot 0 is an ordinary slot. -/
def State.setX (s : State) (i : Reg) (v : Word) : State := { s with ctx := { s.ctx with frame := s.ctx.frame.set i.val v } }

/-- R38: does the word at `a` share a byte with the caller's in-memory copy of the frame? Addresses are modulo 2^32. -/
def State.overlapsFrame (s : State) (a : Word) : Bool :=
  match s.ctx.frameCopy with
  | none => false
  | some base => decide ((a - base).toNat < Config.frameBytes) || decide ((base - a).toNat < 4)

/-- R135 item 2: an operation whose data address overlaps the in-memory frame is refused; else it goes on. -/
def State.unlessOverlap (s : State) (a : Word) (k : Outcome) : Outcome :=
  if s.overlapsFrame a then .refused (.frameOverlap a) else k

/-! ## The reservation (R24, R26) -/

/-- `resv <- Reserved(a)`. -/
def State.reserve (s : State) (a : Word) : State := { s with ctx := { s.ctx with resv := some a } }

/-- `resv <- Free`. -/
def State.free (s : State) : State := { s with ctx := { s.ctx with resv := none } }

/-! ## The response (R32, R130, R132) -/

/-- The response port answers `r`. -/
def State.respond (s : State) (r : Response) : State := { s with ctx := { s.ctx with response := some r } }

/-- `return Handled` (R123). -/
def State.handled (s : State) : Outcome := .next (s.respond .handled)

/-- `raise Fault(kind, addr)` (R132, R137): the request ends at the access that failed, with the effects before it
in place. This is all of taking an exception that the block does: it has no cause register and no vector (R131). -/
def State.raise (s : State) (kind : FaultKind) (addr : Word) : Outcome := .next (s.respond (.fault kind addr))

/-- `return Declined` (R121, R122). -/
def State.decline (s : State) : Outcome := .next (s.respond .declined)

/-! ## Trap entry and return, the caller's part (R134, R136) -/

/-- R134: register `i` is saved in slot `i`, the caller holds the trapped address and its in-memory copy's place;
no request of this trap has been answered. -/
def State.trapEntry (s : State) (regs : Vector Word 32) (pc : Word) (copyAt : Option Word) : State :=
  { s with ctx := { s.ctx with frame := regs, regs := regs, resumePc := pc, frameCopy := copyAt, response := none } }

/-- R136: the registers restored from the frame, slot 0 discarded (the host's register 0 keeps its value). -/
def Context.restored (c : Context) : Vector Word 32 := c.frame.set 0 c.regs[0]

/-- R124, R136: after `Handled` the resuming program counter moves on by 4 and the registers are restored; after
`Declined` the host goes on as OnDecline says; after a `Fault`, or with no response, there is no licence to move it.
DESIGN CHOICE, safe (log 30): the spec gives the caller's in-memory copy of the frame (R38) no end; `frameCopy` stays after the
trap has ended, until the next `trapEntry` replaces it. -/
def State.trapReturn (s : State) : State :=
  match s.ctx.response with
  | some .handled =>
    { s with ctx := { s.ctx with regs := s.ctx.restored, resumePc := s.ctx.resumePc + 4#32, response := none } }
  | some .declined => { s with ctx := { s.ctx with resumePc := s.onDecline, response := none } }
  | some (.fault _ _) => s
  | none => s

/-! ## Execution contexts (R28, R140) -/

/-- R135 item 4: two execution contexts are wired to one reservation register. -/
def State.sharesReservation (s : State) : Bool := !decide ((s.ctx.resvId :: s.parked.map Context.resvId).Nodup)

/-- The `k`-th parked context acts from here on, and the one that acted takes its place. -/
def State.switchTo (s : State) (k : Nat) : Outcome :=
  match s.parked[k]? with
  | some c => .next { s with ctx := c, parked := s.parked.set k s.ctx }
  | none => .refused (.noSuchContext k)

/-! ## The Instruction Fetcher (R80 to R85) -/

/-- R80: the 32 bits that start at byte `offset` of the buffer with `w0` in its low half. -/
def reassemble (w0 w1 : Word) (offset : Nat) : Word := (w1 ++ w0 : BitVec 64).extractLsb' (8 * offset) 32

/-- R80: `pc & ~0x3`. -/
def fetchBase (pc : Word) : Word := pc &&& 0xFFFFFFFC#32

/-- R80: both words are read, the lower first, whatever the offset (R82); the second address is modulo 2^32 (R83);
a failed read ends the fetch (R84). -/
def fetch (pc : Word) (s : State) : PortResult Word :=
  match memRead (fetchBase pc) s with
  | .failed k a t => .failed k a t
  | .done w0 t =>
    match memRead (fetchBase pc + 4#32) t with
    | .failed k a u => .failed k a u
    | .done w1 u => .done (reassemble w0 w1 (pc - fetchBase pc).toNat) u

end Sys2Proof.Machine
end

