-- ==== Sys2Proof/Machine/Flags.lean ====
section
/-! DEFINITION. Machine/Flags.lean: the block has no flags (R29), so there is no flag computation; here stand the two
comparisons that the minimum and maximum operations are defined by (00_scope.md section 4). -/

namespace Sys2Proof.Machine

/-- `a <s b`: as two's-complement integers. -/
def signedLess (a b : Word) : Bool := decide (a.toInt < b.toInt)

/-- `a <u b`: as unsigned integers. -/
def unsignedLess (a b : Word) : Bool := decide (a.toNat < b.toNat)

end Sys2Proof.Machine
end

