-- ==== Sys2Proof/Machine/Operands.lean ====
section
/-! DEFINITION. Machine/Operands.lean: the operand forms. There is one (R68): the address is `x[rs1]` with no offset and no
update, the data operand `x[rs2]`, the result goes to `x[rd]`; there is no immediate. -/

namespace Sys2Proof.Machine

/-- R68: the data address of an operation. -/
def State.address (s : State) (rs1 : Reg) : Word := s.x rs1

/-- R68: the data operand of an operation (the store value of an SC, the operand of an AMO). -/
def State.operand (s : State) (rs2 : Reg) : Word := s.x rs2

end Sys2Proof.Machine
end

