-- ==== Sys2Proof/Machine/Amo.lean ====
section
/-! DEFINITION. Machine/Amo.lean: the nine atomic memory operations (42_amo.md). -/

namespace Sys2Proof.Machine

/-- R100: address and operand are read before `x[rd]` is written; `x[rd]` is written before memory is; the write is
done even where it changes nothing (R46). R110: the reservation is neither read nor written. -/
def amo (f : Word → Word → Word) (rd rs1 rs2 : Reg) (s : State) : Outcome :=
  let a := s.address rs1
  s.unlessOverlap a <|
    match memRead a s with
    | .failed kind addr t => t.raise kind addr
    | .done old t =>
      match memWrite a (f old (t.operand rs2)) (t.setX rd old) with
      | .failed kind addr u => u.raise kind addr
      | .done () u => u.handled

/-- R101. -/
def swapWord (_old operand : Word) : Word := operand

/-- R102: modulo 2^32; overflow is not reported. -/
def addWord (old operand : Word) : Word := old + operand

/-- R103. -/
def xorWord (old operand : Word) : Word := old ^^^ operand

/-- R104. -/
def andWord (old operand : Word) : Word := old &&& operand

/-- R105. -/
def orWord (old operand : Word) : Word := old ||| operand

/-- R106: the signed minimum. -/
def minWord (old operand : Word) : Word := if signedLess old operand then old else operand

/-- R107: the signed maximum. -/
def maxWord (old operand : Word) : Word := if signedLess old operand then operand else old

/-- R108: the unsigned minimum. -/
def minuWord (old operand : Word) : Word := if unsignedLess old operand then old else operand

/-- R109: the unsigned maximum. -/
def maxuWord (old operand : Word) : Word := if unsignedLess old operand then operand else old

/-- `amoswap.w rd, rs2, (rs1)` (R101). -/
def execAmoswapW (rd rs1 rs2 : Reg) (_u : Unexamined) (s : State) : Outcome := amo swapWord rd rs1 rs2 s

/-- `amoadd.w rd, rs2, (rs1)` (R102). -/
def execAmoaddW (rd rs1 rs2 : Reg) (_u : Unexamined) (s : State) : Outcome := amo addWord rd rs1 rs2 s

/-- `amoxor.w rd, rs2, (rs1)` (R103). -/
def execAmoxorW (rd rs1 rs2 : Reg) (_u : Unexamined) (s : State) : Outcome := amo xorWord rd rs1 rs2 s

/-- `amoand.w rd, rs2, (rs1)` (R104). -/
def execAmoandW (rd rs1 rs2 : Reg) (_u : Unexamined) (s : State) : Outcome := amo andWord rd rs1 rs2 s

/-- `amoor.w rd, rs2, (rs1)` (R105). -/
def execAmoorW (rd rs1 rs2 : Reg) (_u : Unexamined) (s : State) : Outcome := amo orWord rd rs1 rs2 s

/-- `amomin.w rd, rs2, (rs1)` (R106). -/
def execAmominW (rd rs1 rs2 : Reg) (_u : Unexamined) (s : State) : Outcome := amo minWord rd rs1 rs2 s

/-- `amomax.w rd, rs2, (rs1)` (R107). -/
def execAmomaxW (rd rs1 rs2 : Reg) (_u : Unexamined) (s : State) : Outcome := amo maxWord rd rs1 rs2 s

/-- `amominu.w rd, rs2, (rs1)` (R108). -/
def execAmominuW (rd rs1 rs2 : Reg) (_u : Unexamined) (s : State) : Outcome := amo minuWord rd rs1 rs2 s

/-- `amomaxu.w rd, rs2, (rs1)` (R109). -/
def execAmomaxuW (rd rs1 rs2 : Reg) (_u : Unexamined) (s : State) : Outcome := amo maxuWord rd rs1 rs2 s

end Sys2Proof.Machine
end

