-- ==== Sys2Proof/Machine/LrSc.lean ====
section
/-! DEFINITION. Machine/LrSc.lean: load-reserved and store-conditional (41_lr_sc.md). -/

namespace Sys2Proof.Machine

/-- R90: the address is read, the reservation set, the word read, `x[rd]` written, in that order. -/
def loadReserved (rd rs1 : Reg) (s : State) : Outcome :=
  let a := s.address rs1
  s.unlessOverlap a <|
    match memRead a (s.reserve a) with
    | .failed kind addr t => t.raise kind addr
    | .done v t => (t.setX rd v).handled

/-- R91: on a reservation of the very same address (R55) the word is written, `x[rd]` gets 0 and the reservation
ends; otherwise `x[rd]` gets 1, the reservation ends, and memory is not accessed. -/
def storeConditional (rd rs1 rs2 : Reg) (s : State) : Outcome :=
  let a := s.address rs1
  s.unlessOverlap a <|
    if s.ctx.resv = some a then
      match memWrite a (s.operand rs2) s with
      | .failed kind addr t => t.raise kind addr
      | .done () t => (t.setX rd 0x00000000#32).free.handled
    else (s.setX rd 0x00000001#32).free.handled

/-- `lr.w rd, (rs1)` (R90). R63: `rs2` and the unexamined bits have no effect. -/
def execLrW (rd rs1 _rs2 : Reg) (_u : Unexamined) (s : State) : Outcome := loadReserved rd rs1 s

/-- `sc.w rd, rs2, (rs1)` (R91). R63: the unexamined bits have no effect. -/
def execScW (rd rs1 rs2 : Reg) (_u : Unexamined) (s : State) : Outcome := storeConditional rd rs1 rs2 s

end Sys2Proof.Machine
end

