-- ==== Sys2Proof/Machine/Dispatch.lean ====
section
/-! DEFINITION. Machine/Dispatch.lean: one arm per instruction (43_driver.md R120, the dispatch on the selector). -/

namespace Sys2Proof.Machine

def exec (i : Instr) (s : State) : Host.Outcome State Fault Refusal :=
  match i with
  | .lrW rd rs1 rs2 u => Sys2Proof.Machine.execLrW rd rs1 rs2 u s
  | .scW rd rs1 rs2 u => Sys2Proof.Machine.execScW rd rs1 rs2 u s
  | .amoswapW rd rs1 rs2 u => Sys2Proof.Machine.execAmoswapW rd rs1 rs2 u s
  | .amoaddW rd rs1 rs2 u => Sys2Proof.Machine.execAmoaddW rd rs1 rs2 u s
  | .amoxorW rd rs1 rs2 u => Sys2Proof.Machine.execAmoxorW rd rs1 rs2 u s
  | .amoandW rd rs1 rs2 u => Sys2Proof.Machine.execAmoandW rd rs1 rs2 u s
  | .amoorW rd rs1 rs2 u => Sys2Proof.Machine.execAmoorW rd rs1 rs2 u s
  | .amominW rd rs1 rs2 u => Sys2Proof.Machine.execAmominW rd rs1 rs2 u s
  | .amomaxW rd rs1 rs2 u => Sys2Proof.Machine.execAmomaxW rd rs1 rs2 u s
  | .amominuW rd rs1 rs2 u => Sys2Proof.Machine.execAmominuW rd rs1 rs2 u s
  | .amomaxuW rd rs1 rs2 u => Sys2Proof.Machine.execAmomaxuW rd rs1 rs2 u s

end Sys2Proof.Machine
end

