-- ==== Sys2Proof/Machine/Driver.lean ====
section
/-! DEFINITION. Machine/Driver.lean: the Emulation Driver (43_driver.md R120 to R127) and what each input does. -/

namespace Sys2Proof.Machine

/-- R120 from the classification on: a word is declined (R121, R122) or its operation runs (R123). -/
def runWord (w : Word) (s : State) : Outcome :=
  match decodeWord w with
  | .ok i => exec i s
  | .error _ => s.decline

/-- R120: the instruction word is the request's (R86), or fetched (R80). An odd program counter is refused before any
access (R81, R133 item 1); a failed fetch read ends the request (R84, R133 item 2). -/
def runEntry (e : Entry) (s : State) : Outcome :=
  match e with
  | .word w => runWord w s
  | .pc p =>
    if p.getLsbD 0 then .refused (.oddPc p)
    else
      match fetch p s with
      | .failed kind addr t => t.raise kind addr
      | .done w t => runWord w t

/-- The inputs still to come are `xs`. -/
def State.withInputs (s : State) (xs : List Input) : State := { s with inputs := xs }

/-- A request begins: the port has seen no access of it, nothing has been answered, and other agents' stores are
those that come while it runs. -/
def State.accept (s : State) (r : Request) : State :=
  { s with during := r.during, accesses := [], ctx := { s.ctx with response := none } }

/-- A request has ended: the other agents' stores still to come land. -/
def complete : Outcome → Outcome
  | .next t => .next t.settle
  | .fault f => .fault f
  | .refused r => .refused r

/-- One request (R120, R126), with the contract of R135 items 3 and 4 checked first. -/
def runRequest (r : Request) (s : State) : Outcome :=
  if s.sharesReservation then .refused .sharedReservation
  else if r.nested = [] then complete (runEntry r.entry (s.accept r))
  else .refused .reentry

/-- What an input does. Reset sets `resv <- Free` and changes nothing else (R150, R151). A store by the host core or
another agent changes memory and nothing else, the reservation least of all (R26, R56). -/
def runInput (x : Input) (s : State) : Outcome :=
  match x with
  | .reset => .next s.free
  | .request r => runRequest r s
  | .trap regs pc copyAt => .next (s.trapEntry regs pc copyAt)
  | .resume => .next s.trapReturn
  | .store b => .next { s with mem := s.mem.applyBatch b }
  | .switch k => s.switchTo k

/-- The machine's next step: the next input, or nothing where none has come (R152). -/
def runNext (s : State) : Outcome :=
  match s.inputs with
  | [] => .next s
  | x :: xs => runInput x (s.withInputs xs)

/-- The request that carries the word `w` and nothing else, put before all other inputs. -/
def State.offerWord (s : State) (w : Word) : State :=
  s.withInputs (.request { entry := .word w, during := [], nested := [] } :: s.inputs)

end Sys2Proof.Machine
end

