-- ==== Sys2Proof/Machine/Step.lean ====
section
/-! DEFINITION. Machine/Step.lean: the step of the machine, and how a word is put where the next step takes it. -/

namespace Sys2Proof.Machine

/-- One step: one input, a request being one indivisible step of its context (R51, D14). -/
def step (s : State) : Host.Outcome State Fault Refusal := runNext s

/-- The block takes its next instruction from the request port, not from a program counter (R30, R31): the word is
the next request (log 10). -/
def State.withFetchWord (s : State) (nbits w : Nat) : State := s.offerWord (tableWord nbits w)

end Sys2Proof.Machine
end

