-- ==== Sys2Proof/Safety.lean ====
section
/-! DEFINITION. Safety.lean: the terms that claims about the machine use. -/

namespace Sys2Proof.Machine

/-- What holds between steps: memory in canonical form (R37), no store of a request left over (R53),
at most four accesses made by the last request (R160). -/
def State.Inv (s : State) : Prop := s.mem.wf = true ∧ s.during = [] ∧ s.accesses.length ≤ 4

/-- `t` differs from `s`, outside memory, in no other thing than frame slot `rd`, the reservation, the response,
and what the port records of the request (R20, R21). -/
def KeepsOutside (rd : Reg) (s t : State) : Prop :=
  (∀ i : Reg, i ≠ rd → t.x i = s.x i) ∧ t.ctx.resvId = s.ctx.resvId ∧ t.ctx.frameCopy = s.ctx.frameCopy ∧
    t.ctx.regs = s.ctx.regs ∧ t.ctx.resumePc = s.ctx.resumePc ∧ t.parked = s.parked ∧ t.memMap = s.memMap ∧
    t.onDecline = s.onDecline ∧ t.inputs = s.inputs

/-- The address `b` is none of the four bytes of the word at `a`. -/
def OutsideWord (a b : Word) : Prop := b ≠ a ∧ b ≠ a + 1#32 ∧ b ≠ a + 2#32 ∧ b ≠ a + 3#32

/-- The state after the next `n` batches of other agents' stores have landed (R53, D29). -/
def State.othersStored : Nat → State → State
  | 0, s => s
  | n + 1, s => State.othersStored n s.land

/-- The request keeps the contract that one request can break by its shape (R81, R135 items 1 and 3). -/
def Request.keepsContract (r : Request) : Bool :=
  decide (r.nested = []) &&
    match r.entry with
    | .word _ => true
    | .pc p => !p.getLsbD 0

/-- Does the instruction write the reservation (R26)? -/
def usesReservation : Instr → Bool
  | .lrW .. => true
  | .scW .. => true
  | .amoswapW .. => false
  | .amoaddW .. => false
  | .amoxorW .. => false
  | .amoandW .. => false
  | .amoorW .. => false
  | .amominW .. => false
  | .amomaxW .. => false
  | .amominuW .. => false
  | .amomaxuW .. => false

/-- The instruction word of the request, or nothing where its fetch fails (R80, R86). -/
def State.requestWord (s : State) (r : Request) : Option Word :=
  match r.entry with
  | .word w => some w
  | .pc p =>
    match fetch p (s.accept r) with
    | .done w _ => some w
    | .failed _ _ _ => none

/-- Is the word an LR or an SC? -/
def isLrOrSc (w : Word) : Bool :=
  match decodeWord w with
  | .ok i => usesReservation i
  | .error _ => false

/-- May the next step write the acting context's reservation, or hand the machine to another context (R26, R28)?
Only reset, a switch, and a request whose word is an LR or an SC may. -/
def State.mayWriteReservation (s : State) : Bool :=
  match s.inputs with
  | [] => false
  | .reset :: _ => true
  | .switch _ :: _ => true
  | .trap _ _ _ :: _ => false
  | .resume :: _ => false
  | .store _ :: _ => false
  | .request r :: xs => ((s.withInputs xs).requestWord r).any isLrOrSc

/-- `t` is reached from `s` in `k` steps, none of which may write the reservation (R57: no SC, LR or reset between). -/
def QuietRun : Nat → State → State → Prop
  | 0, s, t => s = t
  | k + 1, s, t => s.mayWriteReservation = false ∧ ∃ u, step s = .next u ∧ QuietRun k u t

end Sys2Proof.Machine
end

