-- ==== Sys2Proof/Certificates/Slice0/Obligations.lean ====
section
/-! DEFINITION. Certificates/Slice0/Obligations.lean: the statements for the provers. Each docstring says which rules it formalises.
What other agents store during a request (`during`, `land`, `settle`, `othersStored`) follows the model's schedule, log 12, and what a
device read gives (`portWord`) is log 13: clauses that speak of them are the model's choice, and with no other agent and no
device they say what the rule says of memory itself. -/

open Sys2Proof Sys2Proof.Machine

/-! ## Words and instructions -/

/-- Words written out bit by bit from R60's layout and R64's selectors decode to what they stand for (95_test_vectors.md 3.4 to 3.6). -/
def Obligations.WrittenWordsDecode : Prop :=
  decodeWord 0b00010_0_0_00000_01010_010_00101_0101111#32 = .ok (.lrW 5 10 0 ⟨false, false, 0b010#3⟩) ∧
  decodeWord 0b00010_1_1_11111_01010_000_00101_0101111#32 = .ok (.lrW 5 10 31 ⟨true, true, 0b000#3⟩) ∧
  decodeWord 0b00011_0_0_00110_01010_010_00111_0101111#32 = .ok (.scW 7 10 6 ⟨false, false, 0b010#3⟩) ∧
  decodeWord 0b00000_0_0_00110_00111_010_00101_0101111#32 = .ok (.amoaddW 5 7 6 ⟨false, false, 0b010#3⟩) ∧
  decodeWord 0b11100_0_1_00110_00111_011_00101_0101111#32 = .ok (.amomaxuW 5 7 6 ⟨false, true, 0b011#3⟩) ∧
  decodeWord 0b00101_0_0_00110_00111_010_00101_0101111#32 = .error (.unknownSelector 0b00101#5) ∧
  decodeWord 0x00000013#32 = .error .notAtomic

/-- R64 with R62: a word that shows a row's match value through the mask `0xF800007F` is that row's instruction, its
register operands being bits 11:7, 19:15 and 24:20. -/
def Obligations.MatchValueSelectsInstruction : Prop :=
  ∀ w : Word,
    let rd : Reg := (w.extractLsb' 7 5).toFin
    let rs1 : Reg := (w.extractLsb' 15 5).toFin
    let rs2 : Reg := (w.extractLsb' 20 5).toFin
    let selects (m : Word) (op : Reg → Reg → Reg → Unexamined → Instr) : Prop :=
      w &&& 0xF800007F#32 = m → ∃ u, decodeWord w = .ok (op rd rs1 rs2 u)
    selects 0x1000002F#32 .lrW ∧ selects 0x1800002F#32 .scW ∧ selects 0x0800002F#32 .amoswapW ∧
    selects 0x0000002F#32 .amoaddW ∧ selects 0x2000002F#32 .amoxorW ∧ selects 0x6000002F#32 .amoandW ∧
    selects 0x4000002F#32 .amoorW ∧ selects 0x8000002F#32 .amominW ∧ selects 0xA000002F#32 .amomaxW ∧
    selects 0xC000002F#32 .amominuW ∧ selects 0xE000002F#32 .amomaxuW

/-- R66 with R61 and R65: every word is in exactly one of three classes. Another opcode: not atomic. The opcode and one of
the 21 selectors: unrecognized. The opcode and one of the eleven: an instruction. A word of the first two classes is declined
with no effect, one of the third runs its operation. -/
def Obligations.WordsFallInThreeClasses : Prop :=
  ∀ w : Word,
    (isAtomic w = true ↔ w.extractLsb' 0 7 = 0b0101111#7) ∧
    (decodeWord w = .error .notAtomic ↔ w.extractLsb' 0 7 ≠ 0b0101111#7) ∧
    (∀ sel, decodeWord w = .error (.unknownSelector sel) ↔
      w.extractLsb' 0 7 = 0b0101111#7 ∧ w.extractLsb' 27 5 = sel ∧
        sel ∈ [0b00101#5, 0b00110#5, 0b00111#5, 0b01001#5, 0b01010#5, 0b01011#5, 0b01101#5, 0b01110#5, 0b01111#5,
          0b10001#5, 0b10010#5, 0b10011#5, 0b10101#5, 0b10110#5, 0b10111#5, 0b11001#5, 0b11010#5, 0b11011#5, 0b11101#5,
          0b11110#5, 0b11111#5]) ∧
    ((∃ i, decodeWord w = .ok i) ↔
      w.extractLsb' 0 7 = 0b0101111#7 ∧
        w.extractLsb' 27 5 ∈ [0b00010#5, 0b00011#5, 0b00001#5, 0b00000#5, 0b00100#5, 0b01100#5, 0b01000#5, 0b10000#5,
          0b10100#5, 0b11000#5, 0b11100#5]) ∧
    (∀ (e : Decline) (s : State), decodeWord w = .error e →
      runWord w s = .next { s with ctx := { s.ctx with response := some .declined } }) ∧
    (∀ (i : Instr) (s : State), decodeWord w = .ok i → runWord w s = exec i s)

/-- Decoding the word of an instruction gives the instruction, with every operand and every unexamined bit at every value
(R60, R62, R64), and so does decoding its four bytes, lowest first. -/
def Obligations.DecodeOfEncode : Prop :=
  ∀ (i : Instr) (rest : List Byte),
    decodeWord (encode i) = .ok i ∧
    decodeBytes ([byteOfWord (encode i) 0, byteOfWord (encode i) 1, byteOfWord (encode i) 2, byteOfWord (encode i) 3] ++ rest)
      = .ok (i, rest)

/-- The other direction: a word that decodes is the word of its instruction, so no bit of it is lost (R60). -/
def Obligations.EncodeOfDecode : Prop := ∀ (w : Word) (i : Instr), decodeWord w = .ok i → encode i = w

/-- R63: words that differ only in bits 26:25 and 14:12, and for LR in bits 24:20, have the same outcome and effects,
in every state, whatever the words are. -/
def Obligations.UnexaminedBitsHaveNoEffect : Prop :=
  ∀ (w w' : Word) (s : State),
    (w &&& 0xF9FF8FFF#32 = w' &&& 0xF9FF8FFF#32 → runWord w s = runWord w' s) ∧
    (w &&& 0xF800007F#32 = 0x1000002F#32 → w &&& 0xF80F8FFF#32 = w' &&& 0xF80F8FFF#32 → runWord w s = runWord w' s)

/-! ## The step -/

/-- A step runs the decoded instruction (R120, R86, R80): a request that keeps the contract, whose word, given or fetched,
decodes to `i`, is `exec i` at the accepted request (after the fetch reads, for a PC entry), followed by whatever other
agents still store during it. -/
def Obligations.StepRunsDecodedInstruction : Prop :=
  ∀ (s : State) (r : Request) (xs : List Input) (i : Instr),
    s.inputs = .request r :: xs → s.sharesReservation = false → r.nested = [] →
    (∀ w, r.entry = .word w → decodeWord w = .ok i →
      step s = complete (exec i ((s.withInputs xs).accept r))) ∧
    (∀ p w t, r.entry = .pc p → p.getLsbD 0 = false → fetch p ((s.withInputs xs).accept r) = .done w t →
      decodeWord w = .ok i → step s = complete (exec i t))

/-- The word that the host places is the one that the next step runs (R31, R86; log 10). -/
def Obligations.PlacedWordRunsNext : Prop :=
  ∀ (s : State) (w : Word) (i : Instr), s.sharesReservation = false → decodeWord w = .ok i →
    step (s.withFetchWord 32 w.toNat) = complete (exec i (s.accept ⟨.word w, [], []⟩))

/-- R130: a request ends in exactly one outcome, in a next state that shows it, or it is refused for one of the four
reasons of R135; the machine never stops with a fault. The address of a `Fault` is that of the request's last access. -/
def Obligations.EveryRequestIsAnsweredOrRefused : Prop :=
  ∀ (s : State) (r : Request) (xs : List Input), s.inputs = .request r :: xs →
    (∃ t resp, step s = .next t ∧ t.ctx.response = some resp ∧
      ∀ kind a, resp = .fault kind a → ∃ x, t.accesses.getLast? = some x ∧ (x = .read a ∨ ∃ v, x = .write a v)) ∨
    (∃ p, r.entry = .pc p ∧ p.getLsbD 0 = true ∧ step s = .refused (.oddPc p)) ∨
    (∃ a, s.ctx.frameCopy.isSome = true ∧ step s = .refused (.frameOverlap a)) ∨
    (r.nested ≠ [] ∧ step s = .refused .reentry) ∨
    (s.sharesReservation = true ∧ step s = .refused .sharedReservation)

/-- R121, R122 and R125, with R127: a word that selects no operation is declined, without any data access, and the frame,
memory, the reservation and all else stay as they were, but for what other agents store meanwhile (log 12). Both entries; a PC entry
has then made its two fetch reads. -/
def Obligations.UnrecognizedWordsAreDeclined : Prop :=
  ∀ (s : State) (w : Word) (d : List Batch) (xs : List Input), s.sharesReservation = false →
    (w.extractLsb' 0 7 ≠ 0b0101111#7 ∨
      w.extractLsb' 27 5 ∈ [0b00101#5, 0b00110#5, 0b00111#5, 0b01001#5, 0b01010#5, 0b01011#5, 0b01101#5, 0b01110#5, 0b01111#5,
        0b10001#5, 0b10010#5, 0b10011#5, 0b10101#5, 0b10110#5, 0b10111#5, 0b11001#5, 0b11010#5, 0b11011#5, 0b11101#5,
        0b11110#5, 0b11111#5]) →
    (s.inputs = .request ⟨.word w, d, []⟩ :: xs →
      step s = .next { s with
        inputs := xs, accesses := [], during := [], mem := d.foldl Memory.applyBatch s.mem
        ctx := { s.ctx with response := some .declined } }) ∧
    (∀ pc u, s.inputs = .request ⟨.pc pc, d, []⟩ :: xs → pc.getLsbD 0 = false →
      fetch pc ((s.withInputs xs).accept ⟨.pc pc, d, []⟩) = .done w u →
      ∃ t, step s = .next t ∧ t.ctx = { s.ctx with response := some .declined } ∧ t.parked = s.parked ∧
        t.mem = d.foldl Memory.applyBatch s.mem ∧
        t.accesses = [.read (pc &&& 0xFFFFFFFC#32), .read ((pc &&& 0xFFFFFFFC#32) + 4#32)])

/-- R160 with R46's bound: a request makes at most four accesses, at most two where the word is given. -/
def Obligations.AccessesAreBounded : Prop :=
  ∀ (s t : State) (r : Request) (xs : List Input), s.inputs = .request r :: xs → step s = .next t →
    t.accesses.length ≤ 4 ∧ (∀ w, r.entry = .word w → t.accesses.length ≤ 2)

/-- R46, the table, row by row: the accesses of a completed operation are exactly these, in this order; R47: an SC that
does not match makes none; a declined word makes none; a PC entry first makes its two fetch reads. An AMO writes what it
computed also where that is the old value. Other agents: log 12. -/
def Obligations.AccessesFollowTheTable : Prop :=
  (∀ (i : Instr) (s t : State), exec i s = .next t → t.ctx.response = some .handled →
    ∀ a, a = s.x i.operands.2.1 →
    (∀ rd rs1 rs2 u, i = .lrW rd rs1 rs2 u → t.accesses = s.accesses ++ [.read a]) ∧
    (∀ rd rs1 rs2 u, i = .scW rd rs1 rs2 u → s.ctx.resv = some a → t.accesses = s.accesses ++ [.write a (s.x rs2)]) ∧
    (∀ rd rs1 rs2 u, i = .scW rd rs1 rs2 u → s.ctx.resv ≠ some a → t.accesses = s.accesses) ∧
    ((∀ rd rs1 rs2 u, i ≠ .lrW rd rs1 rs2 u ∧ i ≠ .scW rd rs1 rs2 u) →
      ∃ new, t.accesses = s.accesses ++ [.read a, .write a new] ∧ t.mem = s.land.land.mem.setWord a new)) ∧
  (∀ (w : Word) (s t : State) (e : Decline), decodeWord w = .error e → runWord w s = .next t → t.accesses = s.accesses) ∧
  (∀ (pc w base : Word) (s t : State), base = pc &&& 0xFFFFFFFC#32 → pc.getLsbD 0 = false → fetch pc s = .done w t →
    t.accesses = s.accesses ++ [.read base, .read (base + 4#32)] ∧ runEntry (.pc pc) s = runWord w t)

/-! ## Load-reserved and store-conditional -/

/-- R90, whole. An LR of an aligned, readable word completes: `x[rd]` is the word at the old `x[rs1]`, the reservation is
that address, whatever it was before, memory is not written, and nothing else changes; with no other agent (R53) and no
device, the word is `M32[a]`. A misaligned address fails as MisalignedData whether it is valid or not, an aligned unreadable
one as AccessFault (R42, R43, R133); the reservation is then already set, and no slot is written. Other agents and devices: logs 12, 13. -/
def Obligations.LoadReservedFollowsItsRule : Prop :=
  ∀ (rd rs1 rs2 : Reg) (u : Unexamined) (s : State) (a : Word), a = s.x rs1 → s.overlapsFrame a = false →
    (a.extractLsb' 0 2 = 0#2 → s.memValid a .read = true →
      ∃ t, exec (.lrW rd rs1 rs2 u) s = .next t ∧ t.ctx.response = some .handled ∧
        t.x rd = s.land.portWord a ∧ t.ctx.resv = some a ∧ t.mem = s.land.mem ∧
        t.accesses = s.accesses ++ [.read a] ∧ KeepsOutside rd s t ∧
        (s.during = [] → s.isDevice a = false → t.x rd = s.word a ∧ t.mem = s.mem)) ∧
    (∀ kind, ((a.extractLsb' 0 2 ≠ 0#2 ∧ kind = .misalignedData) ∨
        (a.extractLsb' 0 2 = 0#2 ∧ s.memValid a .read = false ∧ kind = .accessFault)) →
      ∃ t, exec (.lrW rd rs1 rs2 u) s = .next t ∧ t.ctx.response = some (.fault kind a) ∧ t.ctx.resv = some a ∧
        t.ctx.frame = s.ctx.frame ∧ t.mem = s.land.mem ∧ KeepsOutside rd s t)

/-- R91, whole, with R55's exact match. On a reservation of the very address, aligned and writable: the old `x[rs2]` is
stored, `x[rd]` is 0, the reservation ends, no other byte and no other slot changes. With no reservation, or one of any other
address (another byte of the same word too): `x[rd]` is 1, the reservation ends, memory is not accessed (R47), and no
alignment or validity matters. A failed write leaves the reservation, the frame and memory as they were. Other agents: log 12. -/
def Obligations.StoreConditionalFollowsItsRule : Prop :=
  ∀ (rd rs1 rs2 : Reg) (u : Unexamined) (s : State) (a : Word), a = s.x rs1 → s.overlapsFrame a = false →
    (s.ctx.resv = some a → a.extractLsb' 0 2 = 0#2 → s.memValid a .write = true →
      ∃ t, exec (.scW rd rs1 rs2 u) s = .next t ∧ t.ctx.response = some .handled ∧
        t.x rd = 0x00000000#32 ∧ t.ctx.resv = none ∧ t.mem = s.land.mem.setWord a (s.x rs2) ∧
        (s.mem.wf = true → t.word a = s.x rs2) ∧ (∀ b, OutsideWord a b → t.byte b = s.land.byte b) ∧
        t.accesses = s.accesses ++ [.write a (s.x rs2)] ∧ KeepsOutside rd s t) ∧
    (s.ctx.resv ≠ some a →
      ∃ t, exec (.scW rd rs1 rs2 u) s = .next t ∧ t.ctx.response = some .handled ∧
        t.x rd = 0x00000001#32 ∧ t.ctx.resv = none ∧ t.mem = s.mem ∧ t.during = s.during ∧ t.accesses = s.accesses ∧
        KeepsOutside rd s t) ∧
    (∀ kind, s.ctx.resv = some a →
      ((a.extractLsb' 0 2 ≠ 0#2 ∧ kind = .misalignedData) ∨
        (a.extractLsb' 0 2 = 0#2 ∧ s.memValid a .write = false ∧ kind = .accessFault)) →
      ∃ t, exec (.scW rd rs1 rs2 u) s = .next t ∧ t.ctx.response = some (.fault kind a) ∧ t.ctx.resv = some a ∧
        t.ctx.frame = s.ctx.frame ∧ t.mem = s.land.mem ∧ KeepsOutside rd s t)

/-- R92, the whole table, rows of requests that complete and rows of requests that fault, as one statement about every
instruction, every declined word, every failed fetch and reset. Other agents and devices: logs 12, 13. -/
def Obligations.ReservationTransitionTable : Prop :=
  ∀ (s : State),
    (∃ t, runInput .reset s = .next t ∧ t.ctx.resv = none ∧ t.ctx.frame = s.ctx.frame ∧ t.mem = s.mem) ∧
    (∀ (w : Word) (e : Decline), decodeWord w = .error e → ∃ t, runWord w s = .next t ∧ t.ctx.response = some .declined ∧
      t.ctx.resv = s.ctx.resv ∧ t.ctx.frame = s.ctx.frame ∧ t.mem = s.mem) ∧
    (∀ (pc b : Word) (kind : FaultKind) (u : State), pc.getLsbD 0 = false → fetch pc s = .failed kind b u →
      ∃ t, runEntry (.pc pc) s = .next t ∧ t.ctx.response = some (.fault kind b) ∧ t.ctx.resv = s.ctx.resv ∧
        t.ctx.frame = s.ctx.frame) ∧
    ∀ (i : Instr) (t : State), exec i s = .next t → ∀ a rd rs2, a = s.x i.operands.2.1 → rd = i.operands.1 → rs2 = i.operands.2.2 →
      ((∃ rs1 u, i = .lrW rd rs1 rs2 u) →
        t.ctx.resv = some a ∧ (t.ctx.response = some .handled → t.x rd = s.land.portWord a ∧ t.mem = s.land.mem)) ∧
      ((∃ rs1 u, i = .scW rd rs1 rs2 u) →
        (s.ctx.resv ≠ some a → t.ctx.response = some .handled ∧ t.ctx.resv = none ∧ t.x rd = 1#32 ∧ t.mem = s.mem) ∧
        (s.ctx.resv = some a → t.ctx.response = some .handled →
          t.ctx.resv = none ∧ t.x rd = 0#32 ∧ t.mem = s.land.mem.setWord a (s.x rs2)) ∧
        (s.ctx.resv = some a → t.ctx.response ≠ some .handled → t.ctx.resv = some a)) ∧
      ((∀ rs1 u, i ≠ .lrW rd rs1 rs2 u ∧ i ≠ .scW rd rs1 rs2 u) →
        t.ctx.resv = s.ctx.resv ∧ (t.ctx.response = some .handled → t.x rd = s.land.portWord a ∧
          ∃ new, t.mem = s.land.land.mem.setWord a new))

/-! ## Atomic memory operations -/

/-- What R100 says of an AMO with the function `f` that completes: `x[rd]` is the old word, the word at the old `x[rs1]` is
`f` of the old word and the old `x[rs2]`, no other byte, no other slot and no reservation (R110) changes. Other agents'
stores land before the read and before the write (R48; logs 12, 13); with none (R53) and no device, the old word is `M32[a]`. -/
def AmoCompletesWith (op : Reg → Reg → Reg → Unexamined → Instr) (f : Word → Word → Word) : Prop :=
  ∀ (rd rs1 rs2 : Reg) (u : Unexamined) (s : State) (a old : Word), a = s.x rs1 → old = s.land.portWord a →
    s.overlapsFrame a = false → a.extractLsb' 0 2 = 0#2 → s.memValid a .read = true → s.memValid a .write = true →
    ∃ t, exec (op rd rs1 rs2 u) s = .next t ∧ t.ctx.response = some .handled ∧
      t.x rd = old ∧ t.mem = s.land.land.mem.setWord a (f old (s.x rs2)) ∧
      (s.mem.wf = true → t.word a = f old (s.x rs2)) ∧ (∀ b, OutsideWord a b → t.byte b = s.land.land.byte b) ∧
      t.ctx.resv = s.ctx.resv ∧ t.accesses = s.accesses ++ [.read a, .write a (f old (s.x rs2))] ∧ KeepsOutside rd s t ∧
      (s.during = [] → s.isDevice a = false → old = s.word a ∧ ∀ b, OutsideWord a b → t.byte b = s.byte b)

/-- R101, R103, R104, R105 with R100 and R110. -/
def Obligations.AmoSwapAndBitwiseResults : Prop :=
  AmoCompletesWith .amoswapW (fun _ operand => operand) ∧
  AmoCompletesWith .amoxorW (fun old operand => old ^^^ operand) ∧
  AmoCompletesWith .amoandW (fun old operand => old &&& operand) ∧
  AmoCompletesWith .amoorW (fun old operand => old ||| operand)

/-- R102 with R100 and R110: the sum modulo 2^32. -/
def Obligations.AmoAddWrapsModulo : Prop :=
  AmoCompletesWith .amoaddW (fun old operand => BitVec.ofNat 32 ((old.toNat + operand.toNat) % 4294967296))

/-- R106 and R107 with R100 and R110: the two's-complement minimum and maximum. -/
def Obligations.AmoSignedMinMaxResults : Prop :=
  AmoCompletesWith .amominW (fun old operand => BitVec.ofInt 32 (min old.toInt operand.toInt)) ∧
  AmoCompletesWith .amomaxW (fun old operand => BitVec.ofInt 32 (max old.toInt operand.toInt))

/-- R108 and R109 with R100 and R110: the unsigned minimum and maximum. -/
def Obligations.AmoUnsignedMinMaxResults : Prop :=
  AmoCompletesWith .amominuW (fun old operand => BitVec.ofNat 32 (min old.toNat operand.toNat)) ∧
  AmoCompletesWith .amomaxuW (fun old operand => BitVec.ofNat 32 (max old.toNat operand.toNat))

/-- R108's corner case: the unsigned and the signed minimum of two words differ exactly when the words' sign bits do. -/
def Obligations.MinuDiffersFromMinOnSigns : Prop :=
  ∀ a b : Word, minuWord a b ≠ minWord a b ↔ a.msb ≠ b.msb

/-- R100's fault part with R42, R43, R132 and R133: if the read fails nothing has changed; if only the write fails, `x[rd]`
already holds the old word, and memory and the reservation are unchanged (R158). All nine AMOs. -/
def Obligations.AmoFaultsKeepMemory : Prop :=
  ∀ (i : Instr) (rd rs1 rs2 : Reg) (u : Unexamined) (s : State) (a : Word), a = s.x rs1 → s.overlapsFrame a = false →
    i ∈ [.amoswapW rd rs1 rs2 u, .amoaddW rd rs1 rs2 u, .amoxorW rd rs1 rs2 u, .amoandW rd rs1 rs2 u, .amoorW rd rs1 rs2 u,
      .amominW rd rs1 rs2 u, .amomaxW rd rs1 rs2 u, .amominuW rd rs1 rs2 u, .amomaxuW rd rs1 rs2 u] →
    (∀ kind, ((a.extractLsb' 0 2 ≠ 0#2 ∧ kind = .misalignedData) ∨
        (a.extractLsb' 0 2 = 0#2 ∧ s.memValid a .read = false ∧ kind = .accessFault)) →
      ∃ t, exec i s = .next t ∧ t.ctx.response = some (.fault kind a) ∧ t.ctx.frame = s.ctx.frame ∧ t.mem = s.land.mem ∧
        t.ctx.resv = s.ctx.resv ∧ KeepsOutside rd s t) ∧
    (a.extractLsb' 0 2 = 0#2 → s.memValid a .read = true → s.memValid a .write = false →
      ∃ t, exec i s = .next t ∧ t.ctx.response = some (.fault .accessFault a) ∧ t.x rd = s.land.portWord a ∧
        t.mem = s.land.land.mem ∧ t.ctx.resv = s.ctx.resv ∧ KeepsOutside rd s t)

/-- R110: an AMO neither reads nor writes the reservation: with any other reservation it does the same and leaves that
reservation alone. All nine AMOs, whatever the outcome. -/
def Obligations.AmoIgnoresTheReservation : Prop :=
  ∀ (i : Instr) (rd rs1 rs2 : Reg) (u : Unexamined) (s : State) (r : Option Word),
    i ∈ [.amoswapW rd rs1 rs2 u, .amoaddW rd rs1 rs2 u, .amoxorW rd rs1 rs2 u, .amoandW rd rs1 rs2 u, .amoorW rd rs1 rs2 u,
      .amominW rd rs1 rs2 u, .amomaxW rd rs1 rs2 u, .amominuW rd rs1 rs2 u, .amomaxuW rd rs1 rs2 u] →
    (∀ t, exec i s = .next t → t.ctx.resv = s.ctx.resv ∧
      exec i { s with ctx := { s.ctx with resv := r } } = .next { t with ctx := { t.ctx with resv := r } }) ∧
    (∀ why, exec i s = .refused why → exec i { s with ctx := { s.ctx with resv := r } } = .refused why)

/-- R48 and R53 made visible: what another agent stores to the word between an AMO's read and write is lost; the result is
computed from the word as it was read. -/
def Obligations.StoreBetweenReadAndWriteIsLost : Prop :=
  ∀ (rd rs1 rs2 : Reg) (u : Unexamined) (s : State) (a : Word) (b : Batch), a = s.x rs1 → s.mem.wf = true →
    s.overlapsFrame a = false → a.extractLsb' 0 2 = 0#2 → s.memValid a .read = true → s.memValid a .write = true →
    s.isDevice a = false → s.during = [[], b] →
    ∃ t, exec (.amoaddW rd rs1 rs2 u) s = .next t ∧ t.x rd = s.word a ∧ t.word a = s.word a + s.x rs2

/-! ## Frames -/

/-- What an LR leaves unchanged whenever it gives a next state, faulting or not (R20, R21, R90): every slot but `x[rd]`,
everything else of the context but the reservation and the response, and every byte of memory; where other agents store
during the request, memory is what they left after the accesses made. -/
def Obligations.LrFrame : Prop :=
  ∀ (rd rs1 rs2 : Reg) (u : Unexamined) (s t : State), exec (.lrW rd rs1 rs2 u) s = .next t →
    KeepsOutside rd s t ∧ (∀ b, t.byte b = (s.othersStored (t.accesses.length - s.accesses.length)).byte b) ∧
      (s.during = [] → ∀ b, t.byte b = s.byte b)

/-- What an SC leaves unchanged (R20, R21, R91): every slot but `x[rd]`, everything else of the context but the reservation
and the response; every byte outside the word at `x[rs1]`, and that word too unless the reservation is of that address. -/
def Obligations.ScFrame : Prop :=
  ∀ (rd rs1 rs2 : Reg) (u : Unexamined) (s t : State), exec (.scW rd rs1 rs2 u) s = .next t →
    KeepsOutside rd s t ∧
    (∀ a, s.address rs1 = a → ∀ b, OutsideWord a b ∨ s.ctx.resv ≠ some a →
      t.byte b = (s.othersStored (t.accesses.length - s.accesses.length)).byte b ∧ (s.during = [] → t.byte b = s.byte b))

/-- What an AMO leaves unchanged (R20, R21, R100, R110): the reservation, every slot but `x[rd]`, everything else of the
context but the response; every byte outside the word at `x[rs1]`. All nine AMOs. -/
def Obligations.AmoFrame : Prop :=
  ∀ (i : Instr) (rd rs1 rs2 : Reg) (u : Unexamined) (s t : State),
    i ∈ [.amoswapW rd rs1 rs2 u, .amoaddW rd rs1 rs2 u, .amoxorW rd rs1 rs2 u, .amoandW rd rs1 rs2 u, .amoorW rd rs1 rs2 u,
      .amominW rd rs1 rs2 u, .amomaxW rd rs1 rs2 u, .amominuW rd rs1 rs2 u, .amomaxuW rd rs1 rs2 u] →
    exec i s = .next t →
    t.ctx.resv = s.ctx.resv ∧ KeepsOutside rd s t ∧
    (∀ a, s.address rs1 = a → ∀ b, OutsideWord a b →
      t.byte b = (s.othersStored (t.accesses.length - s.accesses.length)).byte b ∧ (s.during = [] → t.byte b = s.byte b))

/-- R22: slot 0 is an ordinary slot: an instruction with `rd = 0` writes its result there, and one with `rs1 = 0` or
`rs2 = 0` reads what the caller put there. -/
def Obligations.SlotZeroIsOrdinary : Prop :=
  ∀ (rs1 rs2 : Reg) (u : Unexamined) (s : State) (a : Word), a = s.x rs1 → s.overlapsFrame a = false →
    (s.ctx.resv ≠ some a → ∃ t, exec (.scW 0 rs1 rs2 u) s = .next t ∧ t.x 0 = 1#32) ∧
    (s.ctx.resv = some a → a.extractLsb' 0 2 = 0#2 → s.memValid a .write = true →
      ∃ t, exec (.scW 0 rs1 0 u) s = .next t ∧ t.x 0 = 0#32 ∧ t.mem = s.land.mem.setWord a (s.ctx.frame[0])) ∧
    (a.extractLsb' 0 2 = 0#2 → s.memValid a .read = true →
      ∃ t, exec (.lrW 0 rs1 rs2 u) s = .next t ∧ t.x 0 = s.land.portWord a) ∧
    (a.extractLsb' 0 2 = 0#2 → s.memValid a .read = true → s.memValid a .write = true →
      ∀ i ∈ [.amoswapW 0 rs1 rs2 u, .amoaddW 0 rs1 rs2 u, .amoxorW 0 rs1 rs2 u, .amoandW 0 rs1 rs2 u, .amoorW 0 rs1 rs2 u,
        .amominW 0 rs1 rs2 u, .amomaxW 0 rs1 rs2 u, .amominuW 0 rs1 rs2 u, .amomaxuW 0 rs1 rs2 u],
      ∃ t, exec i s = .next t ∧ t.x 0 = s.land.portWord a)

/-! ## The memory port -/

/-- R41 and R40 at the port: a completed write changes exactly the four bytes, lowest first, as one access; a read is the four
bytes as one access; a read of that address then returns the word. Other agents: log 12. -/
def Obligations.WriteThenReadReturnsTheWord : Prop :=
  ∀ (a v : Word) (s t : State), s.mem.wf = true → memWrite a v s = .done () t →
    (t.byte a = v.extractLsb' 0 8 ∧ t.byte (a + 1#32) = v.extractLsb' 8 8 ∧ t.byte (a + 2#32) = v.extractLsb' 16 8 ∧
      t.byte (a + 3#32) = v.extractLsb' 24 8) ∧
    (∀ b, OutsideWord a b → t.byte b = s.land.byte b) ∧
    t.accesses = s.accesses ++ [.write a v] ∧
    (∀ w t', memRead a s = .done w t' → s.isDevice a = false →
      t'.accesses = s.accesses ++ [.read a] ∧ w = s.land.byte (a + 3#32) ++ s.land.byte (a + 2#32) ++ s.land.byte (a + 1#32) ++ s.land.byte a) ∧
    (t.during = [] → t.isDevice a = false → t.memValid a .read = true → ∃ t', memRead a t = .done v t' ∧ t'.mem = t.mem)

/-- R42, R43 and R133's last part: when an access fails, as what, and that it changes no byte. -/
def Obligations.FailedAccessesChangeNothing : Prop :=
  ∀ (a v : Word) (s : State),
    (a.extractLsb' 0 2 ≠ 0#2 → memRead a s = .failed .misalignedData a (s.issue (.read a)) ∧
      memWrite a v s = .failed .misalignedData a (s.issue (.write a v))) ∧
    (a.extractLsb' 0 2 = 0#2 → s.memValid a .read = false → memRead a s = .failed .accessFault a (s.issue (.read a))) ∧
    (a.extractLsb' 0 2 = 0#2 → s.memValid a .write = false →
      memWrite a v s = .failed .accessFault a (s.issue (.write a v))) ∧
    (∀ x, (s.issue x).mem = s.land.mem ∧ (s.issue x).ctx = s.ctx)

/-- D19: MemValid is open. Every predicate on addresses and directions is some memory map's. -/
def Obligations.EveryMemValidIsSomeMap : Prop :=
  ∀ valid : Word → Dir → Bool, ∃ m : List Region, ∀ (s : State) (a : Word) (d : Dir), s.memMap = m → s.memValid a d = valid a d

/-! ## The fetcher -/

/-- R80, R82 and R83: for an even program counter whose two words are readable, the fetch reads both, the lower first, and
gives the four bytes at `pc` to `pc + 3`, modulo 2^32, lowest first; it changes nothing. No other agent, no device. An odd
program counter is refused (R81). -/
def Obligations.FetchReassemblesFourBytes : Prop :=
  (∀ (pc : Word) (s : State), pc.getLsbD 0 = true → runEntry (.pc pc) s = .refused (.oddPc pc)) ∧
  ∀ (pc base : Word) (s : State), base = pc &&& 0xFFFFFFFC#32 → pc.getLsbD 0 = false → s.during = [] →
    s.memValid base .read = true → s.memValid (base + 4#32) .read = true →
    s.isDevice base = false → s.isDevice (base + 4#32) = false →
    fetch pc s = .done (s.byte (pc + 3#32) ++ s.byte (pc + 2#32) ++ s.byte (pc + 1#32) ++ s.byte pc)
      { s with accesses := s.accesses ++ [.read base, .read (base + 4#32)] }

/-- R84 and R82: a failed fetch read ends the request with an AccessFault at the word it read; after the first the second
is not made; the second fails the request at either offset; frame, memory and reservation are unchanged. -/
def Obligations.FetchFaultsChangeNothing : Prop :=
  ∀ (pc base : Word) (s : State), base = pc &&& 0xFFFFFFFC#32 → pc.getLsbD 0 = false → s.during = [] →
    (s.memValid base .read = false →
      runEntry (.pc pc) s = .next { s with
        accesses := s.accesses ++ [.read base], ctx := { s.ctx with response := some (.fault .accessFault base) } }) ∧
    (s.memValid base .read = true → s.memValid (base + 4#32) .read = false →
      ∃ t, runEntry (.pc pc) s = .next t ∧ t.ctx = { s.ctx with response := some (.fault .accessFault (base + 4#32)) } ∧
        t.mem = s.mem ∧ t.accesses = s.accesses ++ [.read base, .read (base + 4#32)])

/-- R85: for an even program counter whose fetch reads complete, the PC entry is the Word entry of the fetched word, apart
from the fetch reads. First: it is that word's run after the reads, which leave the contexts, the platform and memory (but
for other agents' stores) alone. Second: with no other agent and no device under the fetch, a step with the PC entry and a
step with the Word entry of the bytes at `pc` differ only in the two reads. -/
def Obligations.PcEntryEqualsWordEntry : Prop :=
  (∀ (pc w : Word) (s t : State), pc.getLsbD 0 = false → fetch pc s = .done w t →
    runEntry (.pc pc) s = runEntry (.word w) t ∧ t.ctx = s.ctx ∧ t.parked = s.parked ∧ t.mem = s.land.land.mem ∧
      t.memMap = s.memMap) ∧
  (∀ (pc base : Word) (s : State) (xs : List Input), base = pc &&& 0xFFFFFFFC#32 → pc.getLsbD 0 = false →
    s.memValid base .read = true → s.memValid (base + 4#32) .read = true →
    s.isDevice base = false → s.isDevice (base + 4#32) = false →
    let byPc := step (s.withInputs (.request ⟨.pc pc, [], []⟩ :: xs))
    let byWord := step (s.withInputs (.request ⟨.word (s.word pc), [], []⟩ :: xs))
    (∀ t, byWord = .next t → byPc = .next { t with accesses := [.read base, .read (base + 4#32)] ++ t.accesses }) ∧
    (∀ r, byWord = .refused r → byPc = .refused r))

/-- R58: a later fetch sees the block's own write: a PC entry at a word that the port has written runs what was written. -/
def Obligations.FetchSeesTheBlocksWrites : Prop :=
  ∀ (a v : Word) (s t : State), s.mem.wf = true → memWrite a v s = .done () t → t.during = [] →
    t.memValid a .read = true → t.memValid (a + 4#32) .read = true → t.isDevice a = false → t.isDevice (a + 4#32) = false →
    ∃ u, fetch a t = .done v u ∧ runEntry (.pc a) t = runWord v u ∧ u.mem = t.mem ∧ u.ctx = t.ctx

/-! ## Requests outside the contract -/

/-- R135 item 2 and R38: every instruction refuses a data address one of whose four bytes is one of the 128 bytes of the
caller's in-memory frame, and no other address for that reason. -/
def Obligations.FrameOverlapIsRefused : Prop :=
  ∀ (i : Instr) (s : State) (base a : Word), s.ctx.frameCopy = some base → a = s.x i.operands.2.1 →
    ((∃ j k : Nat, j < 4 ∧ k < 128 ∧ a + BitVec.ofNat 32 j = base + BitVec.ofNat 32 k) →
      exec i s = .refused (.frameOverlap a)) ∧
    ((∀ j k : Nat, j < 4 → k < 128 → a + BitVec.ofNat 32 j ≠ base + BitVec.ofNat 32 k) → ∃ t, exec i s = .next t)

/-- R81, R28 and R135 items 1, 3 and 4, with R133 item 1: an odd program counter, a request while another of the same
context runs, and a reservation register that two contexts share, are refused before anything is done. How a shared register
and a nested request are said, and that they are looked at in this order and before the program counter, is the model's choice
(logs 14 and 17). -/
def Obligations.BrokenContractsAreRefused : Prop :=
  ∀ (s : State) (r : Request) (xs : List Input), s.inputs = .request r :: xs →
    (s.sharesReservation = true → step s = .refused .sharedReservation) ∧
    (s.sharesReservation = false → r.nested ≠ [] → step s = .refused .reentry) ∧
    (∀ p, s.sharesReservation = false → r.nested = [] → r.entry = .pc p → p.getLsbD 0 = true → step s = .refused (.oddPc p)) ∧
    (s.sharesReservation = true ↔
      (∃ c ∈ s.parked, c.resvId = s.ctx.resvId) ∨
        ∃ j k : Nat, j < k ∧ ∃ c d : Context, s.parked[j]? = some c ∧ s.parked[k]? = some d ∧ c.resvId = d.resvId)

/-! ## Reset, the caller, other agents, other contexts -/

/-- R150: after reset the reservation is `Free`. -/
def Obligations.ResetStateIsFree : Prop :=
  State.reset.ctx.resv = none ∧ State.reset.inputs = [] ∧ ∀ c ∈ State.reset.parked, c.resv = none

/-- R150, R151 and R152: the reset input sets the reservation to `Free` and changes nothing else; with no input nothing
happens. -/
def Obligations.ResetInputFreesOnlyTheReservation : Prop :=
  (∀ (s : State) (xs : List Input), s.inputs = .reset :: xs →
    step s = .next { s with inputs := xs, ctx := { s.ctx with resv := none } }) ∧
  (∀ s : State, s.inputs = [] → step s = .next s)

/-- R134 for the part that the model takes in (the caller's state is the model's choice, log 19): register `i` stands in slot `i` when the trap has been taken, the resuming
program counter is the trapped address, and the reservation is as it was (R26). -/
def Obligations.TrapSavesRegistersInTheFrame : Prop :=
  ∀ (s : State) (xs : List Input) (regs : Vector Word 32) (pc : Word) (copyAt : Option Word),
    s.inputs = .trap regs pc copyAt :: xs →
    ∃ t, step s = .next t ∧ (∀ i : Reg, t.x i = regs[i.val]) ∧ t.ctx.resumePc = pc ∧ t.ctx.resv = s.ctx.resv ∧ t.mem = s.mem ∧
      t.parked = s.parked

/-- R124 and R136: after `Handled` the resuming program counter moves on by 4 (R124) and the registers are the frame's, slot 0
discarded (R22, R136); after a `Fault` the program counter does not move (R124); the reservation stays (R26). The rest is the
model's choice: that register 0 keeps its value is log 21 (DEDUCED); that after `Declined` the host goes to the address
OnDecline with its registers unchanged, that after a `Fault` everything else of the context stays too, and that the frame and
memory stay, is log 19 (DESIGN CHOICE). -/
def Obligations.TrapReturnFollowsTheResponse : Prop :=
  ∀ (s : State) (xs : List Input), s.inputs = .resume :: xs →
    ∃ t, step s = .next t ∧ t.ctx.resv = s.ctx.resv ∧ t.ctx.frame = s.ctx.frame ∧ t.mem = s.mem ∧
      (s.ctx.response = some .handled → t.ctx.resumePc = s.ctx.resumePc + 4#32 ∧ t.ctx.regs[0] = s.ctx.regs[0] ∧
        ∀ i : Reg, i ≠ 0 → t.ctx.regs[i.val] = s.x i) ∧
      (s.ctx.response = some .declined → t.ctx.resumePc = s.onDecline ∧ t.ctx.regs = s.ctx.regs) ∧
      (∀ kind a, s.ctx.response = some (.fault kind a) → t.ctx = s.ctx)

/-- R56 and R154: an ordinary store by the host core or another agent changes the byte it stores and nothing else, and
leaves a reservation alone, of that address too. -/
def Obligations.OrdinaryStoreKeepsReservation : Prop :=
  ∀ (s : State) (xs : List Input) (a : Word) (v : Byte), s.mem.wf = true → s.inputs = .store [⟨a, v⟩] :: xs →
    ∃ t, step s = .next t ∧ t.byte a = v ∧ (∀ b, b ≠ a → t.byte b = s.byte b) ∧ t.ctx = s.ctx ∧ t.parked = s.parked

/-- R28 and R140: a request of one context leaves every other context as it was, and what the request does does not depend
on the others. -/
def Obligations.OtherContextsAreIsolated : Prop :=
  (∀ (s t : State) (r : Request) (xs : List Input), s.inputs = .request r :: xs → step s = .next t → t.parked = s.parked) ∧
  (∀ (e : Entry) (s : State) (others : List Context),
    (∀ t, runEntry e s = .next t → runEntry e { s with parked := others } = .next { t with parked := others }) ∧
    (∀ r, runEntry e s = .refused r → runEntry e { s with parked := others } = .refused r))

/-- R28 (the input `switch` is the model's choice, log 14): when another context acts, it brings its own frame and reservation, and the one that acted keeps its own. -/
def Obligations.SwitchExchangesContexts : Prop :=
  ∀ (s : State) (xs : List Input) (k : Nat) (c : Context), s.inputs = .switch k :: xs → s.parked[k]? = some c →
    ∃ t, step s = .next t ∧ t.ctx = c ∧ t.parked[k]? = some s.ctx ∧ (∀ j, j ≠ k → t.parked[j]? = s.parked[j]?) ∧ t.mem = s.mem

/-! ## Whole-machine rules -/

/-- R26: only an LR, an SC and reset write the reservation. Any other step of the context, declined and faulting requests,
AMOs, traps, stores and idling among them, leaves it alone. -/
def Obligations.OnlyLrScResetWriteReservation : Prop :=
  ∀ s t : State, s.mayWriteReservation = false → step s = .next t →
    t.ctx.resv = s.ctx.resv ∧ t.ctx.resvId = s.ctx.resvId ∧ t.parked = s.parked

/-- R57, forward progress: after an LR that completes, and any number of steps none of which may write the reservation, an
SC to the address of the LR succeeds, if the platform takes the write and the address is not the in-memory frame's. -/
def Obligations.ScAfterLrSucceeds : Prop :=
  ∀ (s s1 s2 : State) (r r2 : Request) (xs ys : List Input) (w w2 a : Word) (rd rs1 rs2 rd2 rs12 rs22 : Reg) (u u2 : Unexamined)
    (k : Nat),
    s.inputs = .request r :: xs → (s.withInputs xs).requestWord r = some w →
    decodeWord w = .ok (.lrW rd rs1 rs2 u) → step s = .next s1 → s1.ctx.response = some .handled → a = s.x rs1 →
    QuietRun k s1 s2 →
    s2.inputs = .request r2 :: ys → r2.keepsContract = true → (s2.withInputs ys).requestWord r2 = some w2 →
    decodeWord w2 = .ok (.scW rd2 rs12 rs22 u2) → s2.x rs12 = a → s2.overlapsFrame a = false → s2.memValid a .write = true →
    ∃ t, step s2 = .next t ∧ t.ctx.response = some .handled ∧ t.x rd2 = 0#32 ∧ t.ctx.resv = none

/-- The reset state meets the invariant. -/
def Obligations.ResetMeetsInvariant : Prop := State.reset.Inv

/-- Every step keeps the invariant: memory in canonical form, no store of a request left over, at most four accesses. -/
def Obligations.StepKeepsInvariant : Prop := ∀ s t : State, s.Inv → step s = .next t → t.Inv
end

