-- ==== Sys2Proof/Laws/State.lean ====
section
/-! SUPPORT. Laws/State.lean: one lemma per field per update, so that no later proof unfolds a record update. -/

namespace Sys2Proof.Machine

/-! ### setX -/

@[simp] theorem State.setX_ctx_frame (s : State) (i : Reg) (v : Word) : (s.setX i v).ctx.frame = s.ctx.frame.set i.val v := rfl
@[simp] theorem State.setX_ctx_resv (s : State) (i : Reg) (v : Word) : (s.setX i v).ctx.resv = s.ctx.resv := rfl
@[simp] theorem State.setX_ctx_resvId (s : State) (i : Reg) (v : Word) : (s.setX i v).ctx.resvId = s.ctx.resvId := rfl
@[simp] theorem State.setX_ctx_frameCopy (s : State) (i : Reg) (v : Word) : (s.setX i v).ctx.frameCopy = s.ctx.frameCopy := rfl
@[simp] theorem State.setX_ctx_regs (s : State) (i : Reg) (v : Word) : (s.setX i v).ctx.regs = s.ctx.regs := rfl
@[simp] theorem State.setX_ctx_resumePc (s : State) (i : Reg) (v : Word) : (s.setX i v).ctx.resumePc = s.ctx.resumePc := rfl
@[simp] theorem State.setX_ctx_response (s : State) (i : Reg) (v : Word) : (s.setX i v).ctx.response = s.ctx.response := rfl
@[simp] theorem State.setX_parked (s : State) (i : Reg) (v : Word) : (s.setX i v).parked = s.parked := rfl
@[simp] theorem State.setX_mem (s : State) (i : Reg) (v : Word) : (s.setX i v).mem = s.mem := rfl
@[simp] theorem State.setX_memMap (s : State) (i : Reg) (v : Word) : (s.setX i v).memMap = s.memMap := rfl
@[simp] theorem State.setX_onDecline (s : State) (i : Reg) (v : Word) : (s.setX i v).onDecline = s.onDecline := rfl
@[simp] theorem State.setX_inputs (s : State) (i : Reg) (v : Word) : (s.setX i v).inputs = s.inputs := rfl
@[simp] theorem State.setX_during (s : State) (i : Reg) (v : Word) : (s.setX i v).during = s.during := rfl
@[simp] theorem State.setX_accesses (s : State) (i : Reg) (v : Word) : (s.setX i v).accesses = s.accesses := rfl
@[simp] theorem State.setX_draws (s : State) (i : Reg) (v : Word) : (s.setX i v).draws = s.draws := rfl

/-! ### reserve -/

@[simp] theorem State.reserve_ctx_frame (s : State) (a : Word) : (s.reserve a).ctx.frame = s.ctx.frame := rfl
@[simp] theorem State.reserve_ctx_resv (s : State) (a : Word) : (s.reserve a).ctx.resv = some a := rfl
@[simp] theorem State.reserve_ctx_resvId (s : State) (a : Word) : (s.reserve a).ctx.resvId = s.ctx.resvId := rfl
@[simp] theorem State.reserve_ctx_frameCopy (s : State) (a : Word) : (s.reserve a).ctx.frameCopy = s.ctx.frameCopy := rfl
@[simp] theorem State.reserve_ctx_regs (s : State) (a : Word) : (s.reserve a).ctx.regs = s.ctx.regs := rfl
@[simp] theorem State.reserve_ctx_resumePc (s : State) (a : Word) : (s.reserve a).ctx.resumePc = s.ctx.resumePc := rfl
@[simp] theorem State.reserve_ctx_response (s : State) (a : Word) : (s.reserve a).ctx.response = s.ctx.response := rfl
@[simp] theorem State.reserve_parked (s : State) (a : Word) : (s.reserve a).parked = s.parked := rfl
@[simp] theorem State.reserve_mem (s : State) (a : Word) : (s.reserve a).mem = s.mem := rfl
@[simp] theorem State.reserve_memMap (s : State) (a : Word) : (s.reserve a).memMap = s.memMap := rfl
@[simp] theorem State.reserve_onDecline (s : State) (a : Word) : (s.reserve a).onDecline = s.onDecline := rfl
@[simp] theorem State.reserve_inputs (s : State) (a : Word) : (s.reserve a).inputs = s.inputs := rfl
@[simp] theorem State.reserve_during (s : State) (a : Word) : (s.reserve a).during = s.during := rfl
@[simp] theorem State.reserve_accesses (s : State) (a : Word) : (s.reserve a).accesses = s.accesses := rfl
@[simp] theorem State.reserve_draws (s : State) (a : Word) : (s.reserve a).draws = s.draws := rfl

/-! ### free -/

@[simp] theorem State.free_ctx_frame (s : State) : s.free.ctx.frame = s.ctx.frame := rfl
@[simp] theorem State.free_ctx_resv (s : State) : s.free.ctx.resv = none := rfl
@[simp] theorem State.free_ctx_resvId (s : State) : s.free.ctx.resvId = s.ctx.resvId := rfl
@[simp] theorem State.free_ctx_frameCopy (s : State) : s.free.ctx.frameCopy = s.ctx.frameCopy := rfl
@[simp] theorem State.free_ctx_regs (s : State) : s.free.ctx.regs = s.ctx.regs := rfl
@[simp] theorem State.free_ctx_resumePc (s : State) : s.free.ctx.resumePc = s.ctx.resumePc := rfl
@[simp] theorem State.free_ctx_response (s : State) : s.free.ctx.response = s.ctx.response := rfl
@[simp] theorem State.free_parked (s : State) : s.free.parked = s.parked := rfl
@[simp] theorem State.free_mem (s : State) : s.free.mem = s.mem := rfl
@[simp] theorem State.free_memMap (s : State) : s.free.memMap = s.memMap := rfl
@[simp] theorem State.free_onDecline (s : State) : s.free.onDecline = s.onDecline := rfl
@[simp] theorem State.free_inputs (s : State) : s.free.inputs = s.inputs := rfl
@[simp] theorem State.free_during (s : State) : s.free.during = s.during := rfl
@[simp] theorem State.free_accesses (s : State) : s.free.accesses = s.accesses := rfl
@[simp] theorem State.free_draws (s : State) : s.free.draws = s.draws := rfl

/-! ### respond -/

@[simp] theorem State.respond_ctx_frame (s : State) (r : Response) : (s.respond r).ctx.frame = s.ctx.frame := rfl
@[simp] theorem State.respond_ctx_resv (s : State) (r : Response) : (s.respond r).ctx.resv = s.ctx.resv := rfl
@[simp] theorem State.respond_ctx_resvId (s : State) (r : Response) : (s.respond r).ctx.resvId = s.ctx.resvId := rfl
@[simp] theorem State.respond_ctx_frameCopy (s : State) (r : Response) : (s.respond r).ctx.frameCopy = s.ctx.frameCopy := rfl
@[simp] theorem State.respond_ctx_regs (s : State) (r : Response) : (s.respond r).ctx.regs = s.ctx.regs := rfl
@[simp] theorem State.respond_ctx_resumePc (s : State) (r : Response) : (s.respond r).ctx.resumePc = s.ctx.resumePc := rfl
@[simp] theorem State.respond_ctx_response (s : State) (r : Response) : (s.respond r).ctx.response = some r := rfl
@[simp] theorem State.respond_parked (s : State) (r : Response) : (s.respond r).parked = s.parked := rfl
@[simp] theorem State.respond_mem (s : State) (r : Response) : (s.respond r).mem = s.mem := rfl
@[simp] theorem State.respond_memMap (s : State) (r : Response) : (s.respond r).memMap = s.memMap := rfl
@[simp] theorem State.respond_onDecline (s : State) (r : Response) : (s.respond r).onDecline = s.onDecline := rfl
@[simp] theorem State.respond_inputs (s : State) (r : Response) : (s.respond r).inputs = s.inputs := rfl
@[simp] theorem State.respond_during (s : State) (r : Response) : (s.respond r).during = s.during := rfl
@[simp] theorem State.respond_accesses (s : State) (r : Response) : (s.respond r).accesses = s.accesses := rfl
@[simp] theorem State.respond_draws (s : State) (r : Response) : (s.respond r).draws = s.draws := rfl

/-! ### settle -/

@[simp] theorem State.settle_ctx (s : State) : s.settle.ctx = s.ctx := rfl
@[simp] theorem State.settle_parked (s : State) : s.settle.parked = s.parked := rfl
@[simp] theorem State.settle_mem (s : State) : s.settle.mem = s.during.foldl Memory.applyBatch s.mem := rfl
@[simp] theorem State.settle_memMap (s : State) : s.settle.memMap = s.memMap := rfl
@[simp] theorem State.settle_onDecline (s : State) : s.settle.onDecline = s.onDecline := rfl
@[simp] theorem State.settle_inputs (s : State) : s.settle.inputs = s.inputs := rfl
@[simp] theorem State.settle_during (s : State) : s.settle.during = [] := rfl
@[simp] theorem State.settle_accesses (s : State) : s.settle.accesses = s.accesses := rfl
@[simp] theorem State.settle_draws (s : State) : s.settle.draws = s.draws := rfl

/-! ### accept -/

@[simp] theorem State.accept_ctx_frame (s : State) (r : Request) : (s.accept r).ctx.frame = s.ctx.frame := rfl
@[simp] theorem State.accept_ctx_resv (s : State) (r : Request) : (s.accept r).ctx.resv = s.ctx.resv := rfl
@[simp] theorem State.accept_ctx_resvId (s : State) (r : Request) : (s.accept r).ctx.resvId = s.ctx.resvId := rfl
@[simp] theorem State.accept_ctx_frameCopy (s : State) (r : Request) : (s.accept r).ctx.frameCopy = s.ctx.frameCopy := rfl
@[simp] theorem State.accept_ctx_regs (s : State) (r : Request) : (s.accept r).ctx.regs = s.ctx.regs := rfl
@[simp] theorem State.accept_ctx_resumePc (s : State) (r : Request) : (s.accept r).ctx.resumePc = s.ctx.resumePc := rfl
@[simp] theorem State.accept_ctx_response (s : State) (r : Request) : (s.accept r).ctx.response = none := rfl
@[simp] theorem State.accept_parked (s : State) (r : Request) : (s.accept r).parked = s.parked := rfl
@[simp] theorem State.accept_mem (s : State) (r : Request) : (s.accept r).mem = s.mem := rfl
@[simp] theorem State.accept_memMap (s : State) (r : Request) : (s.accept r).memMap = s.memMap := rfl
@[simp] theorem State.accept_onDecline (s : State) (r : Request) : (s.accept r).onDecline = s.onDecline := rfl
@[simp] theorem State.accept_inputs (s : State) (r : Request) : (s.accept r).inputs = s.inputs := rfl
@[simp] theorem State.accept_during (s : State) (r : Request) : (s.accept r).during = r.during := rfl
@[simp] theorem State.accept_accesses (s : State) (r : Request) : (s.accept r).accesses = [] := rfl
@[simp] theorem State.accept_draws (s : State) (r : Request) : (s.accept r).draws = s.draws := rfl

/-! ### withInputs -/

@[simp] theorem State.withInputs_ctx (s : State) (xs : List Input) : (s.withInputs xs).ctx = s.ctx := rfl
@[simp] theorem State.withInputs_parked (s : State) (xs : List Input) : (s.withInputs xs).parked = s.parked := rfl
@[simp] theorem State.withInputs_mem (s : State) (xs : List Input) : (s.withInputs xs).mem = s.mem := rfl
@[simp] theorem State.withInputs_memMap (s : State) (xs : List Input) : (s.withInputs xs).memMap = s.memMap := rfl
@[simp] theorem State.withInputs_onDecline (s : State) (xs : List Input) : (s.withInputs xs).onDecline = s.onDecline := rfl
@[simp] theorem State.withInputs_inputs (s : State) (xs : List Input) : (s.withInputs xs).inputs = xs := rfl
@[simp] theorem State.withInputs_during (s : State) (xs : List Input) : (s.withInputs xs).during = s.during := rfl
@[simp] theorem State.withInputs_accesses (s : State) (xs : List Input) : (s.withInputs xs).accesses = s.accesses := rfl
@[simp] theorem State.withInputs_draws (s : State) (xs : List Input) : (s.withInputs xs).draws = s.draws := rfl
@[simp] theorem State.sharesReservation_withInputs (s : State) (xs : List Input) :
    (s.withInputs xs).sharesReservation = s.sharesReservation := rfl
@[simp] theorem State.withInputs_self (s : State) : s.withInputs s.inputs = s := rfl

/-! ### land -/

@[simp] theorem State.land_ctx (s : State) : s.land.ctx = s.ctx := rfl
@[simp] theorem State.land_parked (s : State) : s.land.parked = s.parked := rfl
@[simp] theorem State.land_memMap (s : State) : s.land.memMap = s.memMap := rfl
@[simp] theorem State.land_onDecline (s : State) : s.land.onDecline = s.onDecline := rfl
@[simp] theorem State.land_inputs (s : State) : s.land.inputs = s.inputs := rfl
@[simp] theorem State.land_accesses (s : State) : s.land.accesses = s.accesses := rfl
@[simp] theorem State.land_draws (s : State) : s.land.draws = s.draws := rfl
@[simp] theorem State.land_during (s : State) : s.land.during = s.during.tail := rfl
theorem State.land_mem (s : State) : s.land.mem = s.mem.applyBatch (s.during.headD []) := rfl
/-- R53's assumption: where no other agent stores, nothing lands. -/
theorem State.land_alone (s : State) (h : s.during = []) : s.land = s := by
  cases s; simp_all [State.land, Memory.applyBatch]
theorem State.land_mem_alone (s : State) (h : s.during = []) : s.land.mem = s.mem := by
  rw [State.land_alone s h]
/-- A batch lands whole. -/
theorem State.land_batch (s : State) (b : Batch) (bs : List Batch) (h : s.during = b :: bs) :
    s.land = { s with during := bs, mem := s.mem.applyBatch b } := by
  simp [State.land, h]

/-! ### issue -/

@[simp] theorem State.issue_ctx (s : State) (x : Access) : (s.issue x).ctx = s.ctx := rfl
@[simp] theorem State.issue_parked (s : State) (x : Access) : (s.issue x).parked = s.parked := rfl
@[simp] theorem State.issue_memMap (s : State) (x : Access) : (s.issue x).memMap = s.memMap := rfl
@[simp] theorem State.issue_onDecline (s : State) (x : Access) : (s.issue x).onDecline = s.onDecline := rfl
@[simp] theorem State.issue_inputs (s : State) (x : Access) : (s.issue x).inputs = s.inputs := rfl
@[simp] theorem State.issue_draws (s : State) (x : Access) : (s.issue x).draws = s.draws := rfl
@[simp] theorem State.issue_mem (s : State) (x : Access) : (s.issue x).mem = s.land.mem := rfl
@[simp] theorem State.issue_during (s : State) (x : Access) : (s.issue x).during = s.during.tail := rfl
@[simp] theorem State.issue_accesses (s : State) (x : Access) : (s.issue x).accesses = s.accesses ++ [x] := rfl

/-! ### drawn -/

@[simp] theorem State.drawn_ctx (s : State) (a : Word) : (s.drawn a).ctx = s.ctx := rfl
@[simp] theorem State.drawn_parked (s : State) (a : Word) : (s.drawn a).parked = s.parked := rfl
@[simp] theorem State.drawn_mem (s : State) (a : Word) : (s.drawn a).mem = s.mem := rfl
@[simp] theorem State.drawn_memMap (s : State) (a : Word) : (s.drawn a).memMap = s.memMap := rfl
@[simp] theorem State.drawn_onDecline (s : State) (a : Word) : (s.drawn a).onDecline = s.onDecline := rfl
@[simp] theorem State.drawn_inputs (s : State) (a : Word) : (s.drawn a).inputs = s.inputs := rfl
@[simp] theorem State.drawn_during (s : State) (a : Word) : (s.drawn a).during = s.during := rfl
@[simp] theorem State.drawn_accesses (s : State) (a : Word) : (s.drawn a).accesses = s.accesses := rfl
@[simp] theorem State.drawn_draws (s : State) (a : Word) :
    (s.drawn a).draws = if s.isDevice a then s.draws + 1 else s.draws := rfl

/-- At an address that is no device, a read draws nothing. -/
theorem State.drawn_memory (s : State) (a : Word) (h : s.isDevice a = false) : s.drawn a = s := by
  cases s; simp_all [State.drawn]
/-- Where no other agent stores, an access only shows at the port. -/
theorem State.issue_alone (s : State) (x : Access) (h : s.during = []) :
    s.issue x = { s with accesses := s.accesses ++ [x] } := by
  rw [State.issue, State.land_alone s h]

/-! ### putWord -/

@[simp] theorem State.putWord_ctx (s : State) (a v : Word) : (s.putWord a v).ctx = s.ctx := rfl
@[simp] theorem State.putWord_parked (s : State) (a v : Word) : (s.putWord a v).parked = s.parked := rfl
@[simp] theorem State.putWord_mem (s : State) (a v : Word) : (s.putWord a v).mem = s.mem.setWord a v := rfl
@[simp] theorem State.putWord_memMap (s : State) (a v : Word) : (s.putWord a v).memMap = s.memMap := rfl
@[simp] theorem State.putWord_onDecline (s : State) (a v : Word) : (s.putWord a v).onDecline = s.onDecline := rfl
@[simp] theorem State.putWord_inputs (s : State) (a v : Word) : (s.putWord a v).inputs = s.inputs := rfl
@[simp] theorem State.putWord_during (s : State) (a v : Word) : (s.putWord a v).during = s.during := rfl
@[simp] theorem State.putWord_accesses (s : State) (a v : Word) : (s.putWord a v).accesses = s.accesses := rfl
@[simp] theorem State.putWord_draws (s : State) (a v : Word) : (s.putWord a v).draws = s.draws := rfl

/-! ### The frame as slots (R20, R22) -/

/-- R22: every slot, slot 0 too, reads as it was last written. -/
@[simp] theorem State.x_setX_same (s : State) (i : Reg) (v : Word) : (s.setX i v).x i = v := by
  simp [State.x]

@[simp] theorem State.x_setX_other (s : State) (i j : Reg) (v : Word) (h : j ≠ i) : (s.setX i v).x j = s.x j := by
  have : (i : Nat) ≠ j := fun e => h (Fin.ext e.symm)
  simp [State.x, this]

/-- A slot reads the frame and nothing else. -/
theorem State.x_congr {s t : State} (h : t.ctx.frame = s.ctx.frame) (i : Reg) : t.x i = s.x i := by
  simp [State.x, h]

@[simp] theorem State.x_reserve (s : State) (a : Word) (i : Reg) : (s.reserve a).x i = s.x i := rfl
@[simp] theorem State.x_free (s : State) (i : Reg) : s.free.x i = s.x i := rfl
@[simp] theorem State.x_respond (s : State) (r : Response) (i : Reg) : (s.respond r).x i = s.x i := rfl
@[simp] theorem State.x_withInputs (s : State) (xs : List Input) (i : Reg) : (s.withInputs xs).x i = s.x i := rfl
@[simp] theorem State.x_settle (s : State) (i : Reg) : s.settle.x i = s.x i := rfl
@[simp] theorem State.x_accept (s : State) (r : Request) (i : Reg) : (s.accept r).x i = s.x i := rfl
@[simp] theorem State.x_putWord (s : State) (a v : Word) (i : Reg) : (s.putWord a v).x i = s.x i := rfl
@[simp] theorem State.x_land (s : State) (i : Reg) : s.land.x i = s.x i := State.x_congr (by simp) i
@[simp] theorem State.x_issue (s : State) (x : Access) (i : Reg) : (s.issue x).x i = s.x i := State.x_congr (by simp) i
@[simp] theorem State.x_drawn (s : State) (a : Word) (i : Reg) : (s.drawn a).x i = s.x i := State.x_congr (by simp) i

/-! ### The platform's answers do not depend on what a request changes -/

theorem State.memValid_congr {s t : State} (h : t.memMap = s.memMap) (a : Word) (d : Dir) :
    t.memValid a d = s.memValid a d := by
  simp [State.memValid, h]

theorem State.isDevice_congr {s t : State} (h : t.memMap = s.memMap) (a : Word) : t.isDevice a = s.isDevice a := by
  simp [State.isDevice, h]

@[simp] theorem State.memValid_issue (s : State) (x : Access) (a : Word) (d : Dir) :
    (s.issue x).memValid a d = s.memValid a d := State.memValid_congr (by simp) a d
@[simp] theorem State.memValid_drawn (s : State) (b a : Word) (d : Dir) :
    (s.drawn b).memValid a d = s.memValid a d := State.memValid_congr (by simp) a d
@[simp] theorem State.memValid_reserve (s : State) (b a : Word) (d : Dir) :
    (s.reserve b).memValid a d = s.memValid a d := rfl
@[simp] theorem State.memValid_setX (s : State) (i : Reg) (v a : Word) (d : Dir) :
    (s.setX i v).memValid a d = s.memValid a d := rfl
@[simp] theorem State.memValid_land (s : State) (a : Word) (d : Dir) :
    s.land.memValid a d = s.memValid a d := State.memValid_congr (by simp) a d
@[simp] theorem State.isDevice_issue (s : State) (x : Access) (a : Word) :
    (s.issue x).isDevice a = s.isDevice a := State.isDevice_congr (by simp) a
@[simp] theorem State.isDevice_land (s : State) (a : Word) : s.land.isDevice a = s.isDevice a :=
  State.isDevice_congr (by simp) a
@[simp] theorem State.isDevice_reserve (s : State) (b a : Word) : (s.reserve b).isDevice a = s.isDevice a := rfl

/-! ### Landing and the other updates pass each other by -/

@[simp] theorem State.land_mem_reserve (s : State) (a : Word) : (s.reserve a).land.mem = s.land.mem := rfl
@[simp] theorem State.land_mem_setX (s : State) (i : Reg) (v : Word) : (s.setX i v).land.mem = s.land.mem := rfl
@[simp] theorem State.land_mem_drawn (s : State) (a : Word) : (s.drawn a).land.mem = s.land.mem := rfl
@[simp] theorem State.land_mem_issue (s : State) (x : Access) : (s.issue x).land.mem = s.land.land.mem := rfl

/-- The port's answer to a read looks at memory, the platform and the draw count only. -/
theorem State.portWord_congr {s t : State} (hm : t.mem = s.mem) (hp : t.memMap = s.memMap) (hd : t.draws = s.draws)
    (a : Word) : t.portWord a = s.portWord a := by
  simp [State.portWord, State.isDevice, State.word, hm, hp, hd]

@[simp] theorem State.portWord_issue (s : State) (x : Access) (a : Word) : (s.issue x).portWord a = s.land.portWord a :=
  State.portWord_congr (by simp) (by simp) (by simp) a
@[simp] theorem State.portWord_land_reserve (s : State) (b a : Word) :
    (s.reserve b).land.portWord a = s.land.portWord a := State.portWord_congr (by simp) (by simp) (by simp) a

end Sys2Proof.Machine
end

