-- ==== Sys2Proof/Laws/Memory.lean ====
section
/-! SUPPORT. Laws/Memory.lean: memory reads back what was written, keeps every other byte, and keeps its canonical form. -/

namespace Sys2Proof.Machine

theorem Memory.get_set_same (m : Memory) (a : Nat) (v : Byte) (h : m.wf = true) : (m.set a v).get a = v := by
  induction m with
  | nil => by_cases hv : v = Config.unlistedByte <;> simp [Memory.set, Memory.get, hv]
  | cons c m ih =>
    obtain ⟨b, w⟩ := c
    simp only [Memory.wf, Bool.and_eq_true, decide_eq_true_eq, List.all_eq_true] at h
    obtain ⟨⟨⟨-, -⟩, hlt⟩, hm⟩ := h
    have absent : ∀ k : Memory, (∀ c ∈ k, a < c.1) → k.get a = Config.unlistedByte := by
      intro k hk
      induction k with
      | nil => rfl
      | cons d k ihk =>
        have h1 := hk d (by simp)
        have h2 : a ≠ d.1 := by omega
        simpa [Memory.get, h2] using ihk (fun c hc => hk c (by simp [hc]))
    unfold Memory.set
    split
    · rename_i hab
      split
      · rename_i hv
        subst hv
        refine absent _ fun c hc => ?_
        rcases List.mem_cons.mp hc with rfl | hc
        · exact hab
        · have := hlt c hc; omega
      · simp [Memory.get]
    · split
      · rename_i _ hab
        split
        · rename_i hv
          subst hv
          exact absent _ fun c hc => by have := hlt c hc; omega
        · simp [Memory.get]
      · rename_i h1 h2
        simpa [Memory.get, h2] using ih hm

theorem Memory.get_set_other (m : Memory) (a b : Nat) (v : Byte) (h : b ≠ a) : (m.set a v).get b = m.get b := by
  induction m with
  | nil => by_cases hv : v = Config.unlistedByte <;> simp [Memory.set, Memory.get, hv, h]
  | cons c m ih =>
    obtain ⟨d, w⟩ := c
    unfold Memory.set
    split
    · split <;> simp [Memory.get, h]
    · split
      · rename_i _ had
        subst had
        split <;> simp [Memory.get, h]
      · simp [Memory.get, ih]

/-- A bound below the address written and below all listed addresses stays below all listed addresses. -/
theorem Memory.set_above (m : Memory) (a k : Nat) (v : Byte) (ha : k < a) (hm : ∀ c ∈ m, k < c.1) :
    ∀ c ∈ m.set a v, k < c.1 := by
  induction m with
  | nil =>
    by_cases hv : v = Config.unlistedByte <;> simp [Memory.set, hv, ha]
  | cons c m ih =>
    obtain ⟨b, w⟩ := c
    have hb : k < b := hm (b, w) (by simp)
    have hrest : ∀ c ∈ m, k < c.1 := fun c hc => hm c (by simp [hc])
    unfold Memory.set
    split
    · split
      · exact hm
      · intro c hc
        rcases List.mem_cons.mp hc with rfl | hc
        · exact ha
        · exact hm c hc
    · split
      · split
        · exact hrest
        · intro c hc
          rcases List.mem_cons.mp hc with rfl | hc
          · exact ha
          · exact hrest c hc
      · intro c hc
        rcases List.mem_cons.mp hc with rfl | hc
        · exact hb
        · exact ih hrest c hc

theorem Memory.set_wf (m : Memory) (a : Nat) (v : Byte) (ha : a < 4294967296) (h : m.wf = true) : (m.set a v).wf = true := by
  induction m with
  | nil =>
    by_cases hv : v = Config.unlistedByte <;> simp [Memory.set, Memory.wf, hv, ha]
  | cons c m ih =>
    obtain ⟨b, w⟩ := c
    have hfull := h
    simp only [Memory.wf, Bool.and_eq_true, decide_eq_true_eq, List.all_eq_true] at h
    obtain ⟨⟨⟨hb, hw⟩, hlt⟩, hm⟩ := h
    unfold Memory.set
    split
    · rename_i hab
      split
      · exact hfull
      · rename_i hv
        have hall : ∀ c ∈ (b, w) :: m, a < c.1 := by
          intro c hc
          rcases List.mem_cons.mp hc with rfl | hc
          · exact hab
          · have := hlt c hc; omega
        rw [Memory.wf]
        simp only [Bool.and_eq_true, decide_eq_true_eq, List.all_eq_true]
        exact ⟨⟨⟨ha, hv⟩, hall⟩, hfull⟩
    · split
      · rename_i _ hab
        subst hab
        split
        · exact hm
        · rename_i hv
          rw [Memory.wf]
          simp only [Bool.and_eq_true, decide_eq_true_eq, List.all_eq_true]
          exact ⟨⟨⟨ha, hv⟩, hlt⟩, hm⟩
      · rename_i h1 h2
        rw [Memory.wf]
        simp only [Bool.and_eq_true, decide_eq_true_eq, List.all_eq_true]
        exact ⟨⟨⟨hb, hw⟩, Memory.set_above m a b v (by omega) hlt⟩, ih hm⟩

theorem Memory.setWord_wf (m : Memory) (a v : Word) (h : m.wf = true) : (m.setWord a v).wf = true := by
  unfold Memory.setWord
  refine Memory.set_wf _ _ _ (BitVec.isLt _) (Memory.set_wf _ _ _ (BitVec.isLt _) (Memory.set_wf _ _ _ (BitVec.isLt _)
    (Memory.set_wf _ _ _ (BitVec.isLt _) h)))

theorem Memory.applyBatch_wf (m : Memory) (b : Batch) (h : m.wf = true) : (m.applyBatch b).wf = true := by
  unfold Memory.applyBatch
  induction b generalizing m with
  | nil => exact h
  | cons st b ih => exact ih _ (Memory.set_wf _ _ _ (BitVec.isLt _) h)

theorem Memory.applyBatches_wf (m : Memory) (bs : List Batch) (h : m.wf = true) :
    (bs.foldl Memory.applyBatch m).wf = true := by
  induction bs generalizing m with
  | nil => exact h
  | cons b bs ih => exact ih _ (Memory.applyBatch_wf m b h)

/-- The four addresses of a word differ from one another, also where they wrap (R83). -/
theorem word_addresses_differ (a : Word) :
    a.toNat ≠ (a + 1#32).toNat ∧ a.toNat ≠ (a + 2#32).toNat ∧ a.toNat ≠ (a + 3#32).toNat ∧
      (a + 1#32).toNat ≠ (a + 2#32).toNat ∧ (a + 1#32).toNat ≠ (a + 3#32).toNat ∧ (a + 2#32).toNat ≠ (a + 3#32).toNat := by
  refine ⟨?_, ?_, ?_, ?_, ?_, ?_⟩ <;> simp only [BitVec.toNat_add] <;>
    have := a.isLt <;> simp <;> omega

/-- The word put together from the four bytes of `v` is `v` (R40, R41). -/
theorem wordOfBytes_byteOfWord (v : Word) :
    wordOfBytes (byteOfWord v 0) (byteOfWord v 1) (byteOfWord v 2) (byteOfWord v 3) = v := by
  apply BitVec.eq_of_getLsbD_eq
  intro i hi
  simp only [wordOfBytes, byteOfWord, BitVec.getLsbD_append, BitVec.getLsbD_extractLsb']
  by_cases h0 : i < 8
  · simp [h0]
  by_cases h1 : i < 16
  · have : i - 8 < 8 := by omega
    simp [h0, this, show 8 + (i - 8) = i by omega]
  by_cases h2 : i < 24
  · have h3 : ¬ i - 8 < 8 := by omega
    have h4 : i - 8 - 8 < 8 := by omega
    simp [h0, h3, h4, show 16 + (i - 8 - 8) = i by omega]
  · have h3 : ¬ i - 8 < 8 := by omega
    have h4 : ¬ i - 8 - 8 < 8 := by omega
    have h5 : i - 8 - 8 - 8 < 8 := by omega
    simp [h0, h3, h4, h5, show 24 + (i - 8 - 8 - 8) = i by omega]

/-- What a word write leaves at each of its four bytes (R41). -/
theorem Memory.setWord_bytes (m : Memory) (a v : Word) (h : m.wf = true) :
    (m.setWord a v).get a.toNat = byteOfWord v 0 ∧ (m.setWord a v).get (a + 1#32).toNat = byteOfWord v 1 ∧
      (m.setWord a v).get (a + 2#32).toNat = byteOfWord v 2 ∧ (m.setWord a v).get (a + 3#32).toNat = byteOfWord v 3 := by
  obtain ⟨h01, h02, h03, h12, h13, h23⟩ := word_addresses_differ a
  have w0 := Memory.set_wf m a.toNat (byteOfWord v 0) a.isLt h
  have w1 := Memory.set_wf _ (a + 1#32).toNat (byteOfWord v 1) (BitVec.isLt _) w0
  have w2 := Memory.set_wf _ (a + 2#32).toNat (byteOfWord v 2) (BitVec.isLt _) w1
  unfold Memory.setWord
  refine ⟨?_, ?_, ?_, ?_⟩
  · rw [Memory.get_set_other _ _ _ _ h03, Memory.get_set_other _ _ _ _ h02, Memory.get_set_other _ _ _ _ h01,
      Memory.get_set_same _ _ _ h]
  · rw [Memory.get_set_other _ _ _ _ h13, Memory.get_set_other _ _ _ _ h12, Memory.get_set_same _ _ _ w0]
  · rw [Memory.get_set_other _ _ _ _ h23, Memory.get_set_same _ _ _ w1]
  · rw [Memory.get_set_same _ _ _ w2]

theorem toNat_ne_of_ne {a b : Word} (h : b ≠ a) : b.toNat ≠ a.toNat := fun e => h (BitVec.eq_of_toNat_eq e)

/-- A word write changes no other byte (R41). -/
theorem Memory.setWord_outside (m : Memory) (a v b : Word) (h : OutsideWord a b) :
    (m.setWord a v).get b.toNat = m.get b.toNat := by
  obtain ⟨h0, h1, h2, h3⟩ := h
  unfold Memory.setWord
  rw [Memory.get_set_other _ _ _ _ (toNat_ne_of_ne h3), Memory.get_set_other _ _ _ _ (toNat_ne_of_ne h2),
    Memory.get_set_other _ _ _ _ (toNat_ne_of_ne h1), Memory.get_set_other _ _ _ _ (toNat_ne_of_ne h0)]

theorem State.land_wf (s : State) (h : s.mem.wf = true) : s.land.mem.wf = true := Memory.applyBatch_wf _ _ h

theorem State.settle_wf (s : State) (h : s.mem.wf = true) : s.settle.mem.wf = true :=
  Memory.applyBatches_wf _ _ h

theorem State.reset_mem_wf : State.reset.mem.wf = true := rfl

end Sys2Proof.Machine
end

