-- ==== Sys2Proof/Laws/Port.lean ====
section
/-! SUPPORT. Laws/Port.lean: everything an access at the memory port can do, said once (R42, R43, R133). -/

namespace Sys2Proof.Machine

theorem memRead_misaligned (a : Word) (s : State) (h : misaligned a = true) :
    memRead a s = .failed .misalignedData a (s.issue (.read a)) := by
  simp [memRead, h]

theorem memRead_invalid (a : Word) (s : State) (h : misaligned a = false) (hv : s.memValid a .read = false) :
    memRead a s = .failed .accessFault a (s.issue (.read a)) := by
  simp [memRead, h, hv]

theorem memRead_valid (a : Word) (s : State) (h : misaligned a = false) (hv : s.memValid a .read = true) :
    memRead a s = .done (s.land.portWord a) ((s.issue (.read a)).drawn a) := by
  simp [memRead, h, hv]

theorem memWrite_misaligned (a v : Word) (s : State) (h : misaligned a = true) :
    memWrite a v s = .failed .misalignedData a (s.issue (.write a v)) := by
  simp [memWrite, h]

theorem memWrite_invalid (a v : Word) (s : State) (h : misaligned a = false) (hv : s.memValid a .write = false) :
    memWrite a v s = .failed .accessFault a (s.issue (.write a v)) := by
  simp [memWrite, h, hv]

theorem memWrite_valid (a v : Word) (s : State) (h : misaligned a = false) (hv : s.memValid a .write = true) :
    memWrite a v s = .done () ((s.issue (.write a v)).putWord a v) := by
  simp [memWrite, h, hv]

/-- What failed, and when: R42 before R43 (R133). -/
def FailsAs (a : Word) (s : State) (d : Dir) (kind : FaultKind) : Prop :=
  (misaligned a = true ∧ kind = .misalignedData) ∨
    (misaligned a = false ∧ s.memValid a d = false ∧ kind = .accessFault)

theorem memRead_cases (a : Word) (s : State) :
    (∃ kind, FailsAs a s .read kind ∧ memRead a s = .failed kind a (s.issue (.read a))) ∨
      (misaligned a = false ∧ s.memValid a .read = true ∧
        memRead a s = .done (s.land.portWord a) ((s.issue (.read a)).drawn a)) := by
  cases h : misaligned a
  · cases hv : s.memValid a .read
    · exact .inl ⟨.accessFault, .inr ⟨h, hv, rfl⟩, memRead_invalid a s h hv⟩
    · exact .inr ⟨rfl, rfl, memRead_valid a s h hv⟩
  · exact .inl ⟨.misalignedData, .inl ⟨h, rfl⟩, memRead_misaligned a s h⟩

theorem memWrite_cases (a v : Word) (s : State) :
    (∃ kind, FailsAs a s .write kind ∧ memWrite a v s = .failed kind a (s.issue (.write a v))) ∨
      (misaligned a = false ∧ s.memValid a .write = true ∧
        memWrite a v s = .done () ((s.issue (.write a v)).putWord a v)) := by
  cases h : misaligned a
  · cases hv : s.memValid a .write
    · exact .inl ⟨.accessFault, .inr ⟨h, hv, rfl⟩, memWrite_invalid a v s h hv⟩
    · exact .inr ⟨rfl, rfl, memWrite_valid a v s h hv⟩
  · exact .inl ⟨.misalignedData, .inl ⟨h, rfl⟩, memWrite_misaligned a v s h⟩

/-- R44: the fetch reads are aligned, so they never fail as misaligned. -/
theorem fetchBase_aligned (p : Word) : misaligned (fetchBase p) = false ∧ misaligned (fetchBase p + 4#32) = false := by
  have h0 : (fetchBase p).toNat % 4 = 0 := by
    simp only [fetchBase, BitVec.toNat_and]
    have : (BitVec.toNat p &&& 4294967292) % 4 = (BitVec.toNat p % 4) &&& (4294967292 % 4) :=
      Nat.and_mod_two_pow (n := 2)
    simpa using this
  have low : ∀ a : Word, a.toNat % 4 = 0 → misaligned a = false := by
    intro a ha
    have : a.extractLsb' 0 2 = 0#2 := by
      apply BitVec.eq_of_toNat_eq
      simpa [BitVec.extractLsb'_toNat] using ha
    simp [misaligned, this]
  refine ⟨low _ h0, low _ ?_⟩
  have h := (fetchBase p).isLt
  simp only [BitVec.toNat_add, BitVec.toNat_ofNat]
  omega

/-- Everything a fetch can do (R80 to R84): the first read fails, the second fails, or both words are read. -/
theorem fetch_cases (p : Word) (s : State) :
    (s.memValid (fetchBase p) .read = false ∧
        fetch p s = .failed .accessFault (fetchBase p) (s.issue (.read (fetchBase p)))) ∨
      (s.memValid (fetchBase p) .read = true ∧ s.memValid (fetchBase p + 4#32) .read = false ∧
        fetch p s = .failed .accessFault (fetchBase p + 4#32)
          (((s.issue (.read (fetchBase p))).drawn (fetchBase p)).issue (.read (fetchBase p + 4#32)))) ∨
      (s.memValid (fetchBase p) .read = true ∧ s.memValid (fetchBase p + 4#32) .read = true ∧
        fetch p s = .done
          (reassemble (s.land.portWord (fetchBase p))
            (((s.issue (.read (fetchBase p))).drawn (fetchBase p)).land.portWord (fetchBase p + 4#32))
            (p - fetchBase p).toNat)
          ((((s.issue (.read (fetchBase p))).drawn (fetchBase p)).issue (.read (fetchBase p + 4#32))).drawn
            (fetchBase p + 4#32))) := by
  obtain ⟨h0, h4⟩ := fetchBase_aligned p
  cases hv : s.memValid (fetchBase p) .read
  · left
    simp [fetch, memRead_invalid _ _ h0 hv]
  · right
    cases hw : s.memValid (fetchBase p + 4#32) .read
    · left
      have hw' : ((s.issue (.read (fetchBase p))).drawn (fetchBase p)).memValid (fetchBase p + 4#32) .read = false := by
        simpa using hw
      simp [fetch, memRead_valid _ _ h0 hv, memRead_invalid _ _ h4 hw']
    · right
      have hw' : ((s.issue (.read (fetchBase p))).drawn (fetchBase p)).memValid (fetchBase p + 4#32) .read = true := by
        simpa using hw
      simp [fetch, memRead_valid _ _ h0 hv, memRead_valid _ _ h4 hw']

end Sys2Proof.Machine
end

