-- ==== Sys2Proof/Laws/Exec.lean ====
section
/-! SUPPORT. Laws/Exec.lean: everything the three shared operations can do, said once, and exec as one of them. -/

namespace Sys2Proof.Machine

/-- Everything an LR can do (R90). -/
theorem loadReserved_cases (rd rs1 : Reg) (s : State) :
    (s.overlapsFrame (s.x rs1) = true ∧ loadReserved rd rs1 s = .refused (.frameOverlap (s.x rs1))) ∨
      (s.overlapsFrame (s.x rs1) = false ∧ ∃ kind, FailsAs (s.x rs1) s .read kind ∧
        loadReserved rd rs1 s =
          .next (((s.reserve (s.x rs1)).issue (.read (s.x rs1))).respond (.fault kind (s.x rs1)))) ∨
      (s.overlapsFrame (s.x rs1) = false ∧ misaligned (s.x rs1) = false ∧ s.memValid (s.x rs1) .read = true ∧
        loadReserved rd rs1 s =
          .next (((((s.reserve (s.x rs1)).issue (.read (s.x rs1))).drawn (s.x rs1)).setX rd
            (s.land.portWord (s.x rs1))).respond .handled)) := by
  unfold loadReserved State.unlessOverlap State.address
  cases ho : s.overlapsFrame (s.x rs1)
  · rcases memRead_cases (s.x rs1) (s.reserve (s.x rs1)) with ⟨kind, hk, he⟩ | ⟨ha, hv, he⟩
    · right; left
      exact ⟨rfl, kind, hk, by simp [ho, he, State.raise]⟩
    · right; right
      exact ⟨rfl, ha, hv, by simp [ho, he, State.handled]⟩
  · left; exact ⟨rfl, by simp [ho]⟩

/-- Everything an SC can do (R91). -/
theorem storeConditional_cases (rd rs1 rs2 : Reg) (s : State) :
    (s.overlapsFrame (s.x rs1) = true ∧ storeConditional rd rs1 rs2 s = .refused (.frameOverlap (s.x rs1))) ∨
      (s.overlapsFrame (s.x rs1) = false ∧ s.ctx.resv = some (s.x rs1) ∧ ∃ kind, FailsAs (s.x rs1) s .write kind ∧
        storeConditional rd rs1 rs2 s =
          .next ((s.issue (.write (s.x rs1) (s.x rs2))).respond (.fault kind (s.x rs1)))) ∨
      (s.overlapsFrame (s.x rs1) = false ∧ s.ctx.resv = some (s.x rs1) ∧ misaligned (s.x rs1) = false ∧
        s.memValid (s.x rs1) .write = true ∧
        storeConditional rd rs1 rs2 s =
          .next (((((s.issue (.write (s.x rs1) (s.x rs2))).putWord (s.x rs1) (s.x rs2)).setX rd 0#32).free).respond
            .handled)) ∨
      (s.overlapsFrame (s.x rs1) = false ∧ s.ctx.resv ≠ some (s.x rs1) ∧
        storeConditional rd rs1 rs2 s = .next (((s.setX rd 1#32).free).respond .handled)) := by
  unfold storeConditional State.unlessOverlap State.address State.operand
  cases ho : s.overlapsFrame (s.x rs1)
  · by_cases hr : s.ctx.resv = some (s.x rs1)
    · rcases memWrite_cases (s.x rs1) (s.x rs2) s with ⟨kind, hk, he⟩ | ⟨ha, hv, he⟩
      · right; left
        exact ⟨rfl, hr, kind, hk, by simp [ho, he, hr, State.raise]⟩
      · right; right; left
        exact ⟨rfl, hr, ha, hv, by simp [ho, he, hr, State.handled]⟩
    · right; right; right
      exact ⟨rfl, hr, by simp [ho, hr, State.handled]⟩
  · left; exact ⟨rfl, by simp [ho]⟩

/-- Everything an AMO can do (R100). -/
theorem amo_cases (f : Word → Word → Word) (rd rs1 rs2 : Reg) (s : State) :
    (s.overlapsFrame (s.x rs1) = true ∧ amo f rd rs1 rs2 s = .refused (.frameOverlap (s.x rs1))) ∨
      (s.overlapsFrame (s.x rs1) = false ∧ ∃ kind, FailsAs (s.x rs1) s .read kind ∧
        amo f rd rs1 rs2 s = .next ((s.issue (.read (s.x rs1))).respond (.fault kind (s.x rs1)))) ∨
      (s.overlapsFrame (s.x rs1) = false ∧ misaligned (s.x rs1) = false ∧ s.memValid (s.x rs1) .read = true ∧
        s.memValid (s.x rs1) .write = false ∧
        amo f rd rs1 rs2 s =
          .next (((((s.issue (.read (s.x rs1))).drawn (s.x rs1)).setX rd (s.land.portWord (s.x rs1))).issue
            (.write (s.x rs1) (f (s.land.portWord (s.x rs1)) (s.x rs2)))).respond
            (.fault .accessFault (s.x rs1)))) ∨
      (s.overlapsFrame (s.x rs1) = false ∧ misaligned (s.x rs1) = false ∧ s.memValid (s.x rs1) .read = true ∧
        s.memValid (s.x rs1) .write = true ∧
        amo f rd rs1 rs2 s =
          .next ((((((s.issue (.read (s.x rs1))).drawn (s.x rs1)).setX rd (s.land.portWord (s.x rs1))).issue
            (.write (s.x rs1) (f (s.land.portWord (s.x rs1)) (s.x rs2)))).putWord (s.x rs1)
              (f (s.land.portWord (s.x rs1)) (s.x rs2))).respond .handled)) := by
  unfold amo State.unlessOverlap State.address State.operand
  cases ho : s.overlapsFrame (s.x rs1)
  · rcases memRead_cases (s.x rs1) s with ⟨kind, hk, he⟩ | ⟨ha, hr, he⟩
    · right; left
      exact ⟨rfl, kind, hk, by simp [ho, he, State.raise]⟩
    · right; right
      simp only [ho, he, State.x_drawn, State.x_issue, ha, hr, true_and, Bool.false_eq_true, if_false]
      cases hw : s.memValid (s.x rs1) .write
      · left
        refine ⟨rfl, ?_⟩
        rw [memWrite_invalid _ _ _ ha (by simpa using hw)]
        rfl
      · right
        refine ⟨rfl, ?_⟩
        rw [memWrite_valid _ _ _ ha (by simpa using hw)]
        rfl
  · left; exact ⟨rfl, by simp [ho]⟩

/-- Every instruction is an LR, an SC, or an AMO with one of the nine functions. -/
theorem exec_shape (i : Instr) :
    (∃ rd rs1 rs2 u, i = .lrW rd rs1 rs2 u ∧ ∀ s, exec i s = loadReserved rd rs1 s) ∨
      (∃ rd rs1 rs2 u, i = .scW rd rs1 rs2 u ∧ ∀ s, exec i s = storeConditional rd rs1 rs2 s) ∨
      (usesReservation i = false ∧ ∃ f rd rs1 rs2, i.operands = (rd, rs1, rs2) ∧ ∀ s, exec i s = amo f rd rs1 rs2 s) := by
  cases i with
  | lrW rd rs1 rs2 u => exact .inl ⟨rd, rs1, rs2, u, rfl, fun _ => rfl⟩
  | scW rd rs1 rs2 u => exact .inr (.inl ⟨rd, rs1, rs2, u, rfl, fun _ => rfl⟩)
  | amoswapW rd rs1 rs2 u => exact .inr (.inr ⟨rfl, swapWord, rd, rs1, rs2, rfl, fun _ => rfl⟩)
  | amoaddW rd rs1 rs2 u => exact .inr (.inr ⟨rfl, addWord, rd, rs1, rs2, rfl, fun _ => rfl⟩)
  | amoxorW rd rs1 rs2 u => exact .inr (.inr ⟨rfl, xorWord, rd, rs1, rs2, rfl, fun _ => rfl⟩)
  | amoandW rd rs1 rs2 u => exact .inr (.inr ⟨rfl, andWord, rd, rs1, rs2, rfl, fun _ => rfl⟩)
  | amoorW rd rs1 rs2 u => exact .inr (.inr ⟨rfl, orWord, rd, rs1, rs2, rfl, fun _ => rfl⟩)
  | amominW rd rs1 rs2 u => exact .inr (.inr ⟨rfl, minWord, rd, rs1, rs2, rfl, fun _ => rfl⟩)
  | amomaxW rd rs1 rs2 u => exact .inr (.inr ⟨rfl, maxWord, rd, rs1, rs2, rfl, fun _ => rfl⟩)
  | amominuW rd rs1 rs2 u => exact .inr (.inr ⟨rfl, minuWord, rd, rs1, rs2, rfl, fun _ => rfl⟩)
  | amomaxuW rd rs1 rs2 u => exact .inr (.inr ⟨rfl, maxuWord, rd, rs1, rs2, rfl, fun _ => rfl⟩)

end Sys2Proof.Machine
end

