-- ==== Sys2Proof/Laws/PerInstr.lean ====
section
/-! SUPPORT. Laws/PerInstr.lean: the family OpcodeRow: an instruction's word has its row's fixed bits. -/

namespace Sys2Proof.Laws.OpcodeRow

/-- R64: the mask of every row of spec/opcode_table.json. -/
def mask : Word := 0xF800007F#32

/-- R64: the match value of the instruction's row. -/
def matchValue : Instr → Word
  | .lrW .. => 0x1000002F#32
  | .scW .. => 0x1800002F#32
  | .amoswapW .. => 0x0800002F#32
  | .amoaddW .. => 0x0000002F#32
  | .amoxorW .. => 0x2000002F#32
  | .amoandW .. => 0x6000002F#32
  | .amoorW .. => 0x4000002F#32
  | .amominW .. => 0x8000002F#32
  | .amomaxW .. => 0xA000002F#32
  | .amominuW .. => 0xC000002F#32
  | .amomaxuW .. => 0xE000002F#32

/-- The word of `i`, seen through the mask, is the match value of its row. -/
def Statement (i : Instr) : Prop := encode i &&& mask = matchValue i

/-- Through the mask only selector and opcode of an assembled word are seen. -/
theorem assemble_mask (sel : BitVec 5) (u : Unexamined) (rs2 rs1 rd : Reg) (opcode : BitVec 7) :
    assemble sel u rs2 rs1 rd opcode &&& mask = sel ++ (0#20 ++ opcode : BitVec 27) := by
  apply BitVec.eq_of_getLsbD_eq
  intro i hi
  simp only [assemble, mask, BitVec.getLsbD_and, BitVec.getLsbD_append, BitVec.getLsbD_zero]
  interval_cases i <;> simp

/-- A row's match value is its selector above the opcode. -/
theorem of_selector (i : Instr) (h : i.selector ++ (0#20 ++ atomicOpcode : BitVec 27) = matchValue i) : Statement i := by
  rw [Statement, encode, assemble_mask, h]

/-- The eleven selectors above the opcode, in closed form (R64). -/
theorem row_words :
    (0b00010#5 ++ (0#20 ++ atomicOpcode : BitVec 27) : Word) = 0x1000002F#32 ∧
    (0b00011#5 ++ (0#20 ++ atomicOpcode : BitVec 27) : Word) = 0x1800002F#32 ∧
    (0b00001#5 ++ (0#20 ++ atomicOpcode : BitVec 27) : Word) = 0x0800002F#32 ∧
    (0b00000#5 ++ (0#20 ++ atomicOpcode : BitVec 27) : Word) = 0x0000002F#32 ∧
    (0b00100#5 ++ (0#20 ++ atomicOpcode : BitVec 27) : Word) = 0x2000002F#32 ∧
    (0b01100#5 ++ (0#20 ++ atomicOpcode : BitVec 27) : Word) = 0x6000002F#32 ∧
    (0b01000#5 ++ (0#20 ++ atomicOpcode : BitVec 27) : Word) = 0x4000002F#32 ∧
    (0b10000#5 ++ (0#20 ++ atomicOpcode : BitVec 27) : Word) = 0x8000002F#32 ∧
    (0b10100#5 ++ (0#20 ++ atomicOpcode : BitVec 27) : Word) = 0xA000002F#32 ∧
    (0b11000#5 ++ (0#20 ++ atomicOpcode : BitVec 27) : Word) = 0xC000002F#32 ∧
    (0b11100#5 ++ (0#20 ++ atomicOpcode : BitVec 27) : Word) = 0xE000002F#32 := by decide

theorem lrW (rd rs1 rs2 : Reg) (u : Unexamined) : Statement (.lrW rd rs1 rs2 u) := of_selector _ row_words.1
theorem scW (rd rs1 rs2 : Reg) (u : Unexamined) : Statement (.scW rd rs1 rs2 u) := of_selector _ row_words.2.1
theorem amoswapW (rd rs1 rs2 : Reg) (u : Unexamined) : Statement (.amoswapW rd rs1 rs2 u) := of_selector _ row_words.2.2.1
theorem amoaddW (rd rs1 rs2 : Reg) (u : Unexamined) : Statement (.amoaddW rd rs1 rs2 u) := of_selector _ row_words.2.2.2.1
theorem amoxorW (rd rs1 rs2 : Reg) (u : Unexamined) : Statement (.amoxorW rd rs1 rs2 u) := of_selector _ row_words.2.2.2.2.1
theorem amoandW (rd rs1 rs2 : Reg) (u : Unexamined) : Statement (.amoandW rd rs1 rs2 u) := of_selector _ row_words.2.2.2.2.2.1
theorem amoorW (rd rs1 rs2 : Reg) (u : Unexamined) : Statement (.amoorW rd rs1 rs2 u) := of_selector _ row_words.2.2.2.2.2.2.1
theorem amominW (rd rs1 rs2 : Reg) (u : Unexamined) : Statement (.amominW rd rs1 rs2 u) := of_selector _ row_words.2.2.2.2.2.2.2.1
theorem amomaxW (rd rs1 rs2 : Reg) (u : Unexamined) : Statement (.amomaxW rd rs1 rs2 u) := of_selector _ row_words.2.2.2.2.2.2.2.2.1
theorem amominuW (rd rs1 rs2 : Reg) (u : Unexamined) : Statement (.amominuW rd rs1 rs2 u) := of_selector _ row_words.2.2.2.2.2.2.2.2.2.1
theorem amomaxuW (rd rs1 rs2 : Reg) (u : Unexamined) : Statement (.amomaxuW rd rs1 rs2 u) := of_selector _ row_words.2.2.2.2.2.2.2.2.2.2

end Sys2Proof.Laws.OpcodeRow
end

