-- ==== Sys2Proof/Tests/Slice0.lean ====
section
/-! SUPPORT. Tests/Slice0.lean: the smoke tests, the vectors of 95_test_vectors.md, and a witness for the hypotheses of every statement.
Every expected value is that of 95_test_vectors.md or is computed by hand from the rule named. -/

namespace Sys2Proof.Tests

open Sys2Proof Sys2Proof.Machine

/-! ## Helpers -/

/-- Environment E0 of 95_test_vectors.md section 1. -/
def mapE0 : List Region := [⟨0x1000, 0x2000, true, true, false⟩, ⟨0x3000, 0x1000, true, false, false⟩]

/-- The reset machine with these frame slots, memory words and reservation, in environment E0. -/
def start (slots : List (Reg × Word)) (words : List (Word × Word)) (resv : Option Word) : State :=
  { State.reset with
    ctx := { Context.reset with frame := slots.foldl (fun f p => f.set p.1.val p.2) Context.reset.frame, resv := resv }
    mem := words.foldl (fun m p => m.setWord p.1 p.2) []
    memMap := mapE0 }

/-- The same machine in environment E1. -/
def inE1 (s : State) : State := { s with memMap := State.reset.memMap }

/-- The unexamined bits as the spec's encoder writes them. -/
def plain : Unexamined := ⟨false, false, 0b010#3⟩

/-- Is the outcome a next state? -/
def isNext : Outcome → Bool
  | .next _ => true
  | .fault _ => false
  | .refused _ => false

/-- The next state, where there is one. -/
def nextOf : Outcome → State
  | .next t => t
  | .fault _ => State.reset
  | .refused _ => State.reset

/-- Why the outcome is refused, where it is. -/
def whyOf : Outcome → Option Refusal
  | .next _ => none
  | .fault _ => none
  | .refused r => some r

theorem next_nextOf {o : Outcome} (h : isNext o = true) : o = .next (nextOf o) := by
  cases o with
  | next t => rfl
  | fault f => cases h
  | refused r => cases h

/-- The step of the machine offered the word `w`. -/
def after (w : Word) (s : State) : State := nextOf (step (s.offerWord w))

/-- The step of the machine offered the program counter `p`. -/
def afterPc (p : Word) (s : State) : Outcome := step (s.withInputs [.request ⟨.pc p, [], []⟩])

/-- What a vector lists of an end state: outcome, slot `i`, the word at `a`, the reservation, the accesses. -/
def seen (s : State) (i : Reg) (a : Word) : Option Response × Word × Word × Option Word × List Access :=
  (s.ctx.response, s.x i, s.word a, s.ctx.resv, s.accesses)

/-! ## WellFormed: each check refuses an ill-formed term -/

theorem test_wordWidth_refuses : (Instr.amoaddW 5 7 6 ⟨false, false, 0b011#3⟩).wordWidth = false := by decide
theorem test_lrSourceZero_refuses : (Instr.lrW 5 10 31 plain).lrSourceZero = false := by decide
theorem test_wellFormed_refuses : (Instr.lrW 5 10 31 plain).wellFormed = false ∧
    (Instr.scW 7 10 6 ⟨true, true, 0b000#3⟩).wellFormed = false := by decide
theorem test_wellFormed_accepts : (Instr.lrW 5 10 0 ⟨true, false, 0b010#3⟩).wellFormed = true ∧
    (Instr.scW 7 10 6 plain).wellFormed = true := by decide

/-! ## Decoding: words written out from R60 and R64, and those of 95_test_vectors.md sections 3.1 to 3.6 -/

theorem test_decode_lrW : decodeTableWord 32 0b00010_0_0_00000_01010_010_00101_0101111 = some (.lrW 5 10 0 plain) ∧
    encode (.lrW 5 10 0 plain) = 0x100522AF#32 := by decide
theorem test_decode_scW : decodeTableWord 32 0b00011_0_0_00110_01010_010_00111_0101111 = some (.scW 7 10 6 plain) ∧
    encode (.scW 7 10 6 plain) = 0x186523AF#32 := by decide
theorem test_decode_amoswapW : decodeTableWord 32 0b00001_0_0_00110_00111_010_00101_0101111 = some (.amoswapW 5 7 6 plain) ∧
    encode (.amoswapW 5 7 6 plain) = 0x0863A2AF#32 := by decide
theorem test_decode_amoaddW : decodeTableWord 32 0b00000_0_0_00110_00111_010_00101_0101111 = some (.amoaddW 5 7 6 plain) ∧
    encode (.amoaddW 5 7 6 plain) = 0x0063A2AF#32 := by decide
theorem test_decode_amoxorW : decodeTableWord 32 0b00100_0_0_00110_00111_010_00101_0101111 = some (.amoxorW 5 7 6 plain) ∧
    encode (.amoxorW 5 7 6 plain) = 0x2063A2AF#32 := by decide
theorem test_decode_amoandW : decodeTableWord 32 0b01100_0_0_00110_00111_010_00101_0101111 = some (.amoandW 5 7 6 plain) ∧
    encode (.amoandW 5 7 6 plain) = 0x6063A2AF#32 := by decide
theorem test_decode_amoorW : decodeTableWord 32 0b01000_0_0_00110_00111_010_00101_0101111 = some (.amoorW 5 7 6 plain) ∧
    encode (.amoorW 5 7 6 plain) = 0x4063A2AF#32 := by decide
theorem test_decode_amominW : decodeTableWord 32 0b10000_0_0_00110_00111_010_00101_0101111 = some (.amominW 5 7 6 plain) ∧
    encode (.amominW 5 7 6 plain) = 0x8063A2AF#32 := by decide
theorem test_decode_amomaxW : decodeTableWord 32 0b10100_0_0_00110_00111_010_00101_0101111 = some (.amomaxW 5 7 6 plain) ∧
    encode (.amomaxW 5 7 6 plain) = 0xA063A2AF#32 := by decide
theorem test_decode_amominuW : decodeTableWord 32 0b11000_0_0_00110_00111_010_00101_0101111 = some (.amominuW 5 7 6 plain) ∧
    encode (.amominuW 5 7 6 plain) = 0xC063A2AF#32 := by decide
theorem test_decode_amomaxuW : decodeTableWord 32 0b11100_0_0_00110_00111_010_00101_0101111 = some (.amomaxuW 5 7 6 plain) ∧
    encode (.amomaxuW 5 7 6 plain) = 0xE063A2AF#32 := by decide
/-- R63, section 3.2: `aq`, `rl`, `funct3` and the `rs2` of LR do not matter to the selection. -/
theorem test_decode_unexamined : decodeTableWord 32 0x17F502AF = some (.lrW 5 10 31 ⟨true, true, 0b000#3⟩) ∧
    decodeTableWord 32 0x0000002F = some (.amoaddW 0 0 0 ⟨false, false, 0b000#3⟩) := by decide
/-- Section 3.3: the 21 unrecognized selectors, and DR-1, DR-3, DR-5, DR-6: another opcode. -/
theorem test_decode_refuses :
    ([0x2863A2AF, 0x3063A2AF, 0x3863A2AF, 0x4863A2AF, 0x5063A2AF, 0x5863A2AF, 0x6863A2AF, 0x7063A2AF, 0x7863A2AF, 0x8863A2AF,
      0x9063A2AF, 0x9863A2AF, 0xA863A2AF, 0xB063A2AF, 0xB863A2AF, 0xC863A2AF, 0xD063A2AF, 0xD863A2AF, 0xE863A2AF, 0xF063A2AF,
      0xF863A2AF, 0x00000013, 0x100522AE, 0x00000000, 0xFFFFFFFF] : List Nat).map (decodeTableWord 32)
      = List.replicate 25 none := by decide
/-- Section 3.1. -/
theorem test_isAtomic :
    [0x0063A2AF#32, 0x0000002F#32, 0xFFFFFFAF#32, 0x000000AF#32, 0x0000012F#32, 0x2863A2AF#32].all isAtomic = true ∧
    [0x00000013#32, 0x0000002E#32, 0x0000006F#32, 0xFFFFFFFF#32, 0x00000000#32].any isAtomic = false := by decide
/-- R40: the first byte is the least significant. -/
theorem test_decodeBytes : (decodeBytes [0xAF, 0xA2, 0x63, 0x00, 0x01]).toOption = some (.amoaddW 5 7 6 plain, [0x01#8]) ∧
    (decodeBytes [0xAF, 0xA2, 0x63]).toOption = none := by decide

/-! ## One step: the vectors of 95_test_vectors.md sections 3.4 to 3.8 -/

/-- LR-3: `rd = rs1`. -/
theorem test_LR_3 : seen (after 0x1005252F (start [(10, 0x2000#32)] [(0x2000#32, 0x12345678#32)] none)) 10 0x2000#32
    = (some .handled, 0x12345678#32, 0x12345678#32, some 0x2000#32, [.read 0x2000#32]) := by decide
/-- LR-4: misaligned; the reservation is already set, `rd` is not written. -/
theorem test_LR_4 : seen (after 0x100522AF (start [(10, 0x2002#32), (5, 0xCAFEF00D#32)] [] none)) 5 0x2000#32
    = (some (.fault .misalignedData 0x2002#32), 0xCAFEF00D#32, 0#32, some 0x2002#32, [.read 0x2002#32]) := by decide
/-- SC-5: `rd = rs2` on success. -/
theorem test_SC_5 : seen (after 0x1865232F (start [(10, 0x2000#32), (6, 0x2A#32)] [(0x2000#32, 5#32)] (some 0x2000#32))) 6 0x2000#32
    = (some .handled, 0#32, 0x2A#32, none, [.write 0x2000#32 0x2A#32]) := by decide
/-- SC-3: the reservation is of another address. -/
theorem test_SC_3 : seen (after 0x1865A3AF (start [(10, 0x2000#32), (11, 0x2004#32), (6, 0x2A#32), (7, 0xDEADBEEF#32)] [(0x2000#32, 5#32), (0x2004#32, 9#32)] (some 0x2000#32))) 7 0x2004#32
    = (some .handled, 1#32, 9#32, none, []) := by decide
/-- SC-7: misaligned on the success path; the reservation stays. -/
theorem test_SC_7 : seen (after 0x186523AF (start [(10, 0x2002#32), (6, 0x2A#32), (7, 0xDEADBEEF#32)] [] (some 0x2002#32))) 7 0x2000#32
    = (some (.fault .misalignedData 0x2002#32), 0xDEADBEEF#32, 0#32, some 0x2002#32, [.write 0x2002#32 0x2A#32]) := by decide
/-- SWAP-1. -/
theorem test_SWAP_1 : seen (after 0x0863A2AF (start [(7, 0x2000#32), (6, 0x22222222#32)] [(0x2000#32, 0x11111111#32)] none)) 5 0x2000#32
    = (some .handled, 0x11111111#32, 0x22222222#32, none, [.read 0x2000#32, .write 0x2000#32 0x22222222#32]) := by decide
/-- SWAP-2: the write is performed though it changes nothing. -/
theorem test_SWAP_2 : seen (after 0x0863A2AF (start [(7, 0x2000#32), (6, 0x12345678#32)] [(0x2000#32, 0x12345678#32)] none)) 5 0x2000#32
    = (some .handled, 0x12345678#32, 0x12345678#32, none, [.read 0x2000#32, .write 0x2000#32 0x12345678#32]) := by decide
/-- ADD-2: unsigned wrap. -/
theorem test_ADD_2 : seen (after 0x0063A2AF (start [(7, 0x2000#32), (6, 1#32)] [(0x2000#32, 0xFFFFFFFF#32)] none)) 5 0x2000#32
    = (some .handled, 0xFFFFFFFF#32, 0#32, none, [.read 0x2000#32, .write 0x2000#32 0#32]) := by decide
/-- ADD-4: `rd = rs1`. -/
theorem test_ADD_4 : seen (after 0x0063A3AF (start [(7, 0x2000#32), (6, 4#32)] [(0x2000#32, 0xA#32)] none)) 7 0x2000#32
    = (some .handled, 0xA#32, 0xE#32, none, [.read 0x2000#32, .write 0x2000#32 0xE#32]) := by decide
/-- XOR-1. -/
theorem test_XOR_1 : seen (after 0x2063A2AF (start [(7, 0x2000#32), (6, 0xFF00FF00#32)] [(0x2000#32, 0xF0F0F0F0#32)] none)) 5 0x2000#32
    = (some .handled, 0xF0F0F0F0#32, 0x0FF00FF0#32, none, [.read 0x2000#32, .write 0x2000#32 0x0FF00FF0#32]) := by decide
/-- AMO-F4: misaligned and invalid. -/
theorem test_AMO_F4 : seen (after 0x2063A2AF (start [(7, 0x5002#32), (6, 3#32), (5, 0xCAFEF00D#32)] [] none)) 5 0x5000#32
    = (some (.fault .misalignedData 0x5002#32), 0xCAFEF00D#32, 0#32, none, [.read 0x5002#32]) := by decide
/-- AND-1. -/
theorem test_AND_1 : seen (after 0x6063A2AF (start [(7, 0x2000#32), (6, 0xFF00FF00#32)] [(0x2000#32, 0xF0F0F0F0#32)] none)) 5 0x2000#32
    = (some .handled, 0xF0F0F0F0#32, 0xF000F000#32, none, [.read 0x2000#32, .write 0x2000#32 0xF000F000#32]) := by decide
/-- OR-1. -/
theorem test_OR_1 : seen (after 0x4063A2AF (start [(7, 0x2000#32), (6, 0x0F00FF00#32)] [(0x2000#32, 0xF0F0F0F0#32)] none)) 5 0x2000#32
    = (some .handled, 0xF0F0F0F0#32, 0xFFF0FFF0#32, none, [.read 0x2000#32, .write 0x2000#32 0xFFF0FFF0#32]) := by decide
/-- AMO-F3: the read succeeds and `x[rd]` is written, the write faults. -/
theorem test_AMO_F3 : seen (after 0x4063A2AF (start [(7, 0x3000#32), (6, 0xFF#32), (5, 0xCAFEF00D#32)] [(0x3000#32, 0x0BADC0DE#32)] none)) 5 0x3000#32
    = (some (.fault .accessFault 0x3000#32), 0x0BADC0DE#32, 0x0BADC0DE#32, none, [.read 0x3000#32, .write 0x3000#32 0x0BADC0FF#32]) := by decide
/-- MIN-2: most negative and most positive. -/
theorem test_MIN_2 : seen (after 0x8063A2AF (start [(7, 0x2000#32), (6, 0x7FFFFFFF#32)] [(0x2000#32, 0x80000000#32)] none)) 5 0x2000#32
    = (some .handled, 0x80000000#32, 0x80000000#32, none, [.read 0x2000#32, .write 0x2000#32 0x80000000#32]) := by decide
/-- MIN-3: -1 and 1. -/
theorem test_MIN_3 : seen (after 0x8063A2AF (start [(7, 0x2000#32), (6, 1#32)] [(0x2000#32, 0xFFFFFFFF#32)] none)) 5 0x2000#32
    = (some .handled, 0xFFFFFFFF#32, 0xFFFFFFFF#32, none, [.read 0x2000#32, .write 0x2000#32 0xFFFFFFFF#32]) := by decide
/-- MAX-1: -5 and 3. -/
theorem test_MAX_1 : seen (after 0xA063A2AF (start [(7, 0x2000#32), (6, 3#32)] [(0x2000#32, 0xFFFFFFFB#32)] none)) 5 0x2000#32
    = (some .handled, 0xFFFFFFFB#32, 3#32, none, [.read 0x2000#32, .write 0x2000#32 3#32]) := by decide
/-- MAX-3: 0 and -1. -/
theorem test_MAX_3 : seen (after 0xA063A2AF (start [(7, 0x2000#32), (6, 0xFFFFFFFF#32)] [(0x2000#32, 0#32)] none)) 5 0x2000#32
    = (some .handled, 0#32, 0#32, none, [.read 0x2000#32, .write 0x2000#32 0#32]) := by decide
/-- MINU-1. -/
theorem test_MINU_1 : seen (after 0xC063A2AF (start [(7, 0x2000#32), (6, 1#32)] [(0x2000#32, 0xFFFFFFFF#32)] none)) 5 0x2000#32
    = (some .handled, 0xFFFFFFFF#32, 1#32, none, [.read 0x2000#32, .write 0x2000#32 1#32]) := by decide
/-- MINU-3: 0 is least. -/
theorem test_MINU_3 : seen (after 0xC063A2AF (start [(7, 0x2000#32), (6, 0xFFFFFFFF#32)] [(0x2000#32, 0#32)] none)) 5 0x2000#32
    = (some .handled, 0#32, 0#32, none, [.read 0x2000#32, .write 0x2000#32 0#32]) := by decide
/-- MAXU-1. -/
theorem test_MAXU_1 : seen (after 0xE063A2AF (start [(7, 0x2000#32), (6, 3#32)] [(0x2000#32, 0xFFFFFFFB#32)] none)) 5 0x2000#32
    = (some .handled, 0xFFFFFFFB#32, 0xFFFFFFFB#32, none, [.read 0x2000#32, .write 0x2000#32 0xFFFFFFFB#32]) := by decide
/-- MAXU-3: all ones is greatest. -/
theorem test_MAXU_3 : seen (after 0xE063A2AF (start [(7, 0x2000#32), (6, 0x12345678#32)] [(0x2000#32, 0xFFFFFFFF#32)] none)) 5 0x2000#32
    = (some .handled, 0xFFFFFFFF#32, 0xFFFFFFFF#32, none, [.read 0x2000#32, .write 0x2000#32 0xFFFFFFFF#32]) := by decide
/-- DR-2: an unrecognized selector; nothing changes. -/
theorem test_DR_2 : seen (after 0x2863A2AF (start [(7, 0x2000#32), (6, 3#32)] [(0x2000#32, 5#32)] (some 0x2000#32))) 6 0x2000#32
    = (some .declined, 3#32, 5#32, some 0x2000#32, []) := by decide
/-- DR-8: slot 0 is the address and gets the result. -/
theorem test_DR_8 : seen (after 0x0000002F (start [(0, 0x2000#32)] [(0x2000#32, 7#32)] none)) 0 0x2000#32
    = (some .handled, 7#32, 0x2007#32, none, [.read 0x2000#32, .write 0x2000#32 0x2007#32]) := by decide
/-- F-2: the instruction at offset 2. -/
theorem test_F_2 : seen (nextOf (afterPc 0x1002
    (start [(7, 0x2000#32), (6, 3#32)] [(0x1000#32, 0xA2AF0001#32), (0x1004#32, 0x00010063#32), (0x2000#32, 5#32)] none))) 5 0x2000#32
    = (some .handled, 5#32, 8#32, none,
      [.read 0x1000#32, .read 0x1004#32, .read 0x2000#32, .write 0x2000#32 8#32]) := by decide
/-- F-3: the second fetch read wraps to address 0. -/
theorem test_F_3 : seen (nextOf (afterPc 0xFFFFFFFE
    (inE1 (start [(7, 0x2000#32), (6, 3#32)] [(0x0#32, 0x00010063#32), (0xFFFFFFFC#32, 0xA2AF0001#32), (0x2000#32, 5#32)] none))))
    5 0x2000#32
    = (some .handled, 5#32, 8#32, none,
      [.read 0xFFFFFFFC#32, .read 0x0#32, .read 0x2000#32, .write 0x2000#32 8#32]) := by decide
/-- F-6: the second word is not needed, its read fails all the same. -/
theorem test_F_6 : seen (nextOf (afterPc 0x3FFC
    (start [(7, 0x2000#32), (6, 3#32)] [(0x3FFC#32, 0x0063A2AF#32), (0x2000#32, 5#32)] none))) 5 0x2000#32
    = (some (.fault .accessFault 0x4000#32), 0#32, 5#32, none, [.read 0x3FFC#32, .read 0x4000#32]) := by decide
/-- RF-1: an odd program counter. -/
theorem test_RF_1 : whyOf (afterPc 0x1001 (start [] [] none)) = some (.oddPc 0x1001#32) := by decide
/-- RF-3: the in-memory frame of 128 bytes at 0x2000; its last word, and the word after it. -/
theorem test_RF_3 :
    whyOf (step (((start [(7, 0x207C#32)] [] none).trapEntry ((Vector.replicate 32 0#32).set 7 0x207C#32) 0 (some 0x2000#32)).offerWord
      0x0063A2AF#32)) = some (.frameOverlap 0x207C#32) ∧
    isNext (step (((start [(7, 0x2080#32)] [] none).trapEntry ((Vector.replicate 32 0#32).set 7 0x2080#32) 0 (some 0x2000#32)).offerWord
      0x0063A2AF#32)) = true := by decide
/-- RF-4: re-entry; and R28: two contexts on one reservation register. -/
theorem test_RF_4 :
    whyOf (step ((start [] [] none).withInputs [.request ⟨.word 0x13#32, [], [.word 0x13#32]⟩])) = some .reentry ∧
    whyOf (step ({ start [] [] none with parked := [Context.reset] }.offerWord 0x13#32)) = some .sharedReservation := by decide
/-- R124: after `Handled` the host's program counter moves on by 4, and its register 0 is not restored (R136). -/
theorem test_resume :
    let t := nextOf (step { after 0x0000002F#32 { start [(0, 0x2000#32)] [(0x2000#32, 7#32)] none with
      ctx := { (start [(0, 0x2000#32)] [] none).ctx with resumePc := 0x1000#32 } } with inputs := [.resume] })
    t.ctx.resumePc = 0x1004#32 ∧ t.ctx.regs[0] = 0#32 ∧ t.x 0 = 7#32 := by decide
/-- R53: another agent's byte, stored between the read and the write of an AMO, is overwritten. -/
theorem test_store_between :
    (nextOf (step ((start [(7, 0x2000#32), (6, 3#32)] [(0x2000#32, 5#32)] none).withInputs
      [.request ⟨.word 0x0063A2AF#32, [[], [⟨0x2003#32, 0xFF#8⟩]], []⟩]))).word 0x2000#32 = 8#32 := by decide

/-! ## Witnesses: states and operands that meet the hypotheses of the statements -/

/-- A memory map with all kinds of regions: E0, and a device at 0x6000. -/
def mapDevice : List Region := mapE0 ++ [⟨0x6000, 0x100, true, true, true⟩]

/-- The word 5 at 0x2000, which `x7` and `x10` hold. -/
def base : State := start [(7, 0x2000#32), (10, 0x2000#32), (6, 3#32)] [(0x2000#32, 5#32)] none

/-- The same, with a reservation of 0x2000. -/
def reserved : State := base.reserve 0x2000#32

/-- The address in `x7` and `x10` is `a`. -/
def at_ (a : Word) : State := start [(7, a), (10, a), (6, 3#32)] [] none

theorem witness_MatchValueSelectsInstruction :
    [0x17FFFFAF#32, 0x1FFFFFAF#32, 0x0FFFFFAF#32, 0x07FFFFAF#32, 0x27FFFFAF#32, 0x67FFFFAF#32, 0x47FFFFAF#32, 0x87FFFFAF#32,
      0xA7FFFFAF#32, 0xC7FFFFAF#32, 0xE7FFFFAF#32].map (fun w : Word => w &&& 0xF800007F#32)
    = [0x1000002F#32, 0x1800002F#32, 0x0800002F#32, 0x0000002F#32, 0x2000002F#32, 0x6000002F#32, 0x4000002F#32, 0x8000002F#32,
      0xA000002F#32, 0xC000002F#32, 0xE000002F#32] := by decide

/-- A word of each of the three classes. -/
theorem witness_WordsFallInThreeClasses : decodeWord 0xFFFFFFFF#32 = .error .notAtomic ∧
    decodeWord 0xFFFFFFAF#32 = .error (.unknownSelector 0b11111#5) ∧
    decodeWord 0xE7FFFFAF#32 = .ok (.amomaxuW 31 31 31 ⟨true, true, 0b111#3⟩) := ⟨rfl, rfl, rfl⟩

theorem witness_EncodeOfDecode : decodeWord 0xE7FFFFAF#32 = .ok (.amomaxuW 31 31 31 ⟨true, true, 0b111#3⟩) := rfl

theorem witness_UnexaminedBitsHaveNoEffect :
    (0x0063A2AF#32 &&& 0xF9FF8FFF#32 = 0x0663F2AF#32 &&& 0xF9FF8FFF#32) ∧
    (0x100522AF#32 &&& 0xF800007F#32 = 0x1000002F#32 ∧ 0x100522AF#32 &&& 0xF80F8FFF#32 = 0x17F502AF#32 &&& 0xF80F8FFF#32) := by decide

theorem witness_StepRunsDecodedInstruction_word :
    (base.offerWord 0x0063A2AF#32).inputs = .request ⟨.word 0x0063A2AF#32, [], []⟩ :: [] ∧
    (base.offerWord 0x0063A2AF#32).sharesReservation = false ∧ decodeWord 0x0063A2AF#32 = .ok (.amoaddW 5 7 6 plain) :=
  ⟨rfl, rfl, rfl⟩

/-- The program counter at the top of memory, where the second read wraps. -/
def fetchTop : State := { inE1 (start [(7, 0x2000#32), (6, 3#32)] [(0x0#32, 0x00010063#32), (0xFFFFFFFC#32, 0xA2AF0001#32)] none) with
  inputs := [.request ⟨.pc 0xFFFFFFFE#32, [], []⟩] }

/-- Does the fetch give this word? -/
def fetches (p w : Word) (s : State) : Bool :=
  match fetch p s with
  | .done v _ => v == w
  | .failed _ _ _ => false

theorem fetched {p w : Word} {s : State} (h : fetches p w s = true) : ∃ t, fetch p s = .done w t := by
  unfold fetches at h
  split at h
  · rename_i v t e
    exact ⟨t, by rw [e, eq_of_beq h]⟩
  · cases h

theorem witness_StepRunsDecodedInstruction_pc :
    fetchTop.inputs = [.request ⟨.pc 0xFFFFFFFE#32, [], []⟩] ∧ fetchTop.sharesReservation = false ∧
    (0xFFFFFFFE#32 : Word).getLsbD 0 = false ∧
    (∃ t, fetch 0xFFFFFFFE#32 ((fetchTop.withInputs []).accept ⟨.pc 0xFFFFFFFE#32, [], []⟩) = .done 0x0063A2AF#32 t) ∧
    decodeWord 0x0063A2AF#32 = .ok (.amoaddW 5 7 6 plain) :=
  ⟨rfl, rfl, rfl, fetched (by decide), rfl⟩

theorem witness_PlacedWordRunsNext : State.reset.sharesReservation = false ∧
    decodeWord 0x100522AF#32 = .ok (.lrW 5 10 0 plain) := ⟨rfl, rfl⟩

theorem witness_EveryRequestIsAnsweredOrRefused : (base.offerWord 0x13#32).inputs = [.request ⟨.word 0x13#32, [], []⟩] := rfl

theorem witness_UnrecognizedWordsAreDeclined :
    (base.withInputs [.request ⟨.word 0x13#32, [[⟨0x2000#32, 9#8⟩]], []⟩]).sharesReservation = false ∧
    (0x13#32 : Word).extractLsb' 0 7 ≠ 0b0101111#7 ∧
    (0xF863A2AF#32 : Word).extractLsb' 0 7 = 0b0101111#7 ∧ (0xF863A2AF#32 : Word).extractLsb' 27 5 = 0b11111#5 := by decide

/-- F-7. -/
theorem witness_UnrecognizedWordsAreDeclined_pc :
    let s := (start [] [(0x1000#32, 0x13#32)] none).withInputs [.request ⟨.pc 0x1000#32, [], []⟩];
    s.sharesReservation = false ∧ s.inputs = .request ⟨.pc 0x1000#32, [], []⟩ :: [] ∧ (0x1000#32 : Word).getLsbD 0 = false ∧
    (∃ u, fetch 0x1000#32 ((s.withInputs []).accept ⟨.pc 0x1000#32, [], []⟩) = .done 0x13#32 u) ∧
    (0x13#32 : Word).extractLsb' 0 7 ≠ 0b0101111#7 :=
  ⟨rfl, rfl, rfl, fetched (by decide), by decide⟩

/-- Four accesses are reached (F-1), and two with the word given. -/
theorem witness_AccessesAreBounded :
    isNext (step fetchTop) = true ∧ (nextOf (step fetchTop)).accesses.length = 4 ∧
    isNext (step (base.offerWord 0x0063A2AF#32)) = true ∧ (after 0x0063A2AF#32 base).accesses.length = 2 := by decide

theorem witness_AccessesFollowTheTable_exec :
    (∃ t, exec (.lrW 5 10 0 plain) base = .next t ∧ t.ctx.response = some .handled) ∧
    (reserved.ctx.resv = some 0x2000#32 ∧ ∃ t, exec (.scW 5 10 6 plain) reserved = .next t ∧ t.ctx.response = some .handled) ∧
    (base.ctx.resv ≠ some 0x2000#32 ∧ ∃ t, exec (.scW 5 10 6 plain) base = .next t ∧ t.ctx.response = some .handled) ∧
    (∃ t, exec (.amomaxuW 5 7 6 plain) base = .next t ∧ t.ctx.response = some .handled) :=
  ⟨⟨_, next_nextOf (by decide), by decide⟩, ⟨by decide, _, next_nextOf (by decide), by decide⟩,
    ⟨by decide, _, next_nextOf (by decide), by decide⟩, ⟨_, next_nextOf (by decide), by decide⟩⟩

theorem witness_AccessesFollowTheTable_declined : decodeWord 0x2863A2AF#32 = .error (.unknownSelector 0b00101#5) ∧
    ∃ t, runWord 0x2863A2AF#32 base = .next t := ⟨rfl, _, next_nextOf (by decide)⟩

theorem witness_AccessesFollowTheTable_fetch : (0xFFFFFFFC#32 : Word) = 0xFFFFFFFE#32 &&& 0xFFFFFFFC#32 ∧
    (0xFFFFFFFE#32 : Word).getLsbD 0 = false ∧ ∃ t, fetch 0xFFFFFFFE#32 fetchTop = .done 0x0063A2AF#32 t :=
  ⟨by decide, by decide, fetched (by decide)⟩

/-- The last readable word of E0; the last valid but misaligned address; the first invalid word. -/
theorem witness_LoadReservedFollowsItsRule :
    ((at_ 0x3FFC#32).x 10 = 0x3FFC#32 ∧ (at_ 0x3FFC#32).overlapsFrame 0x3FFC#32 = false ∧
      (0x3FFC#32 : Word).extractLsb' 0 2 = 0#2 ∧ (at_ 0x3FFC#32).memValid 0x3FFC#32 .read = true ∧
      (at_ 0x3FFC#32).during = [] ∧ (at_ 0x3FFC#32).isDevice 0x3FFC#32 = false) ∧
    ((at_ 0x3FFF#32).x 10 = 0x3FFF#32 ∧ (at_ 0x3FFF#32).overlapsFrame 0x3FFF#32 = false ∧ (0x3FFF#32 : Word).extractLsb' 0 2 ≠ 0#2) ∧
    ((at_ 0x4000#32).x 10 = 0x4000#32 ∧ (at_ 0x4000#32).overlapsFrame 0x4000#32 = false ∧
      (0x4000#32 : Word).extractLsb' 0 2 = 0#2 ∧ (at_ 0x4000#32).memValid 0x4000#32 .read = false) := by decide

/-- The last writable word of E0; a reservation of another byte of the word; misaligned; the first read-only word. -/
theorem witness_StoreConditionalFollowsItsRule :
    (let s := (at_ 0x2FFC#32).reserve 0x2FFC#32;
      s.x 10 = 0x2FFC#32 ∧ s.overlapsFrame 0x2FFC#32 = false ∧ s.ctx.resv = some 0x2FFC#32 ∧
      (0x2FFC#32 : Word).extractLsb' 0 2 = 0#2 ∧ s.memValid 0x2FFC#32 .write = true ∧ s.mem.wf = true) ∧
    (let s := (at_ 0x2000#32).reserve 0x2001#32;
      s.x 10 = 0x2000#32 ∧ s.overlapsFrame 0x2000#32 = false ∧ s.ctx.resv ≠ some 0x2000#32) ∧
    (let s := (at_ 0x2001#32).reserve 0x2001#32;
      s.x 10 = 0x2001#32 ∧ s.overlapsFrame 0x2001#32 = false ∧ s.ctx.resv = some 0x2001#32 ∧ (0x2001#32 : Word).extractLsb' 0 2 ≠ 0#2) ∧
    (let s := (at_ 0x3000#32).reserve 0x3000#32;
      s.x 10 = 0x3000#32 ∧ s.overlapsFrame 0x3000#32 = false ∧ s.ctx.resv = some 0x3000#32 ∧
      (0x3000#32 : Word).extractLsb' 0 2 = 0#2 ∧ s.memValid 0x3000#32 .write = false) := by decide

theorem witness_ReservationTransitionTable_faults :
    (∃ t, exec (.lrW 5 10 0 plain) (at_ 0x4000#32) = .next t ∧ t.ctx.response ≠ some .handled) ∧
    (∃ t, exec (.scW 5 10 6 plain) ((at_ 0x3000#32).reserve 0x3000#32) = .next t ∧ t.ctx.response ≠ some .handled) ∧
    (∃ t, exec (.amoaddW 5 7 6 plain) reserved = .next t ∧ t.ctx.response = some .handled) :=
  ⟨⟨_, next_nextOf (by decide), by decide⟩, ⟨_, next_nextOf (by decide), by decide⟩, ⟨_, next_nextOf (by decide), by decide⟩⟩

theorem witness_ReservationTransitionTable_fetch : (0x4000#32 : Word).getLsbD 0 = false ∧
    ∃ k b u, fetch 0x4000#32 base = .failed k b u := ⟨rfl, .accessFault, 0x4000#32, _, rfl⟩

theorem witness_ReservationTransitionTable_completes :
    (∃ t, exec (.lrW 5 10 0 plain) base = .next t ∧ t.ctx.response = some .handled) ∧
    (∃ t, exec (.scW 5 10 6 plain) reserved = .next t ∧ t.ctx.response = some .handled) ∧
    (∃ t, exec (.scW 5 10 6 plain) ((at_ 0x2002#32).reserve 0x2000#32) = .next t) ∧
    decodeWord 0x2863A2AF#32 = .error (.unknownSelector 0b00101#5) :=
  ⟨⟨_, next_nextOf (by decide), by decide⟩, ⟨_, next_nextOf (by decide), by decide⟩, ⟨_, next_nextOf (by decide)⟩, rfl⟩

/-- For every statement built on AmoCompletesWith: the first and the last word that E0 lets an AMO write, and, in E1, the last word of memory. -/
theorem witness_AmoCompletesWith :
    ((at_ 0x1000#32).x 7 = 0x1000#32 ∧ (at_ 0x1000#32).overlapsFrame 0x1000#32 = false ∧ (0x1000#32 : Word).extractLsb' 0 2 = 0#2 ∧
      (at_ 0x1000#32).memValid 0x1000#32 .read = true ∧ (at_ 0x1000#32).memValid 0x1000#32 .write = true) ∧
    ((at_ 0x2FFC#32).x 7 = 0x2FFC#32 ∧ (at_ 0x2FFC#32).overlapsFrame 0x2FFC#32 = false ∧ (0x2FFC#32 : Word).extractLsb' 0 2 = 0#2 ∧
      (at_ 0x2FFC#32).memValid 0x2FFC#32 .read = true ∧ (at_ 0x2FFC#32).memValid 0x2FFC#32 .write = true) ∧
    (let s := inE1 (at_ 0xFFFFFFFC#32);
      s.x 7 = 0xFFFFFFFC#32 ∧ s.overlapsFrame 0xFFFFFFFC#32 = false ∧ (0xFFFFFFFC#32 : Word).extractLsb' 0 2 = 0#2 ∧
      s.memValid 0xFFFFFFFC#32 .read = true ∧ s.memValid 0xFFFFFFFC#32 .write = true ∧ s.mem.wf = true ∧ s.during = [] ∧
      s.isDevice 0xFFFFFFFC#32 = false) := ⟨by decide, by decide, by decide⟩

theorem witness_MinuDiffersFromMinOnSigns : (0xFFFFFFFF#32 : Word).msb ≠ (1#32 : Word).msb ∧
    minuWord 0xFFFFFFFF#32 1#32 = 1#32 ∧ minWord 0xFFFFFFFF#32 1#32 = 0xFFFFFFFF#32 := by decide

/-- Misaligned; the word before the first readable one; the first and the last read-only word. -/
theorem witness_AmoFaultsKeepMemory :
    ((at_ 0x1FFF#32).x 7 = 0x1FFF#32 ∧ (at_ 0x1FFF#32).overlapsFrame 0x1FFF#32 = false ∧ (0x1FFF#32 : Word).extractLsb' 0 2 ≠ 0#2) ∧
    ((at_ 0x0FFC#32).x 7 = 0x0FFC#32 ∧ (at_ 0x0FFC#32).overlapsFrame 0x0FFC#32 = false ∧ (0x0FFC#32 : Word).extractLsb' 0 2 = 0#2 ∧
      (at_ 0x0FFC#32).memValid 0x0FFC#32 .read = false) ∧
    (let a := 0x3000#32; (at_ a).x 7 = a ∧ (at_ a).overlapsFrame a = false ∧ a.extractLsb' 0 2 = 0#2 ∧
      (at_ a).memValid a .read = true ∧ (at_ a).memValid a .write = false) ∧
    (let a := 0x3FFC#32; (at_ a).x 7 = a ∧ (at_ a).overlapsFrame a = false ∧ a.extractLsb' 0 2 = 0#2 ∧
      (at_ a).memValid a .read = true ∧ (at_ a).memValid a .write = false) :=
  ⟨by decide, by decide, by decide, by decide⟩

theorem witness_AmoIgnoresTheReservation :
    (∃ t, exec (.amoorW 5 7 6 plain) reserved = .next t) ∧
    ∃ why, exec (.amoorW 5 7 6 plain) (reserved.trapEntry reserved.ctx.frame 0 (some 0x1F81#32)) = .refused why :=
  ⟨⟨_, next_nextOf (by decide)⟩, ⟨.frameOverlap 0x2000#32, rfl⟩⟩

theorem witness_StoreBetweenReadAndWriteIsLost :
    let s : State := { base with during := [[], [⟨0x2003#32, 0xFF#8⟩]] }
    s.x 7 = 0x2000#32 ∧ s.mem.wf = true ∧ s.overlapsFrame 0x2000#32 = false ∧ (0x2000#32 : Word).extractLsb' 0 2 = 0#2 ∧
    s.memValid 0x2000#32 .read = true ∧ s.memValid 0x2000#32 .write = true ∧ s.isDevice 0x2000#32 = false ∧
    s.during = [[], [⟨0x2003#32, 0xFF#8⟩]] := by decide

/-- The bytes just outside the word, above and below. -/
theorem witness_frames_outside : OutsideWord 0x2000#32 0x2004#32 ∧ OutsideWord 0x2000#32 0x1FFF#32 := by
  unfold OutsideWord; decide

theorem witness_LrFrame :
    (base.during = [] ∧ ∃ t, exec (.lrW 5 10 0 plain) base = .next t) ∧ ∃ t, exec (.lrW 5 10 0 plain) (at_ 0x4000#32) = .next t :=
  ⟨⟨rfl, _, next_nextOf (by decide)⟩, _, next_nextOf (by decide)⟩

theorem witness_ScFrame :
    (reserved.address 10 = 0x2000#32 ∧ ∃ t, exec (.scW 5 10 6 plain) reserved = .next t) ∧
    (base.ctx.resv ≠ some 0x2000#32 ∧ ∃ t, exec (.scW 5 10 6 plain) base = .next t) :=
  ⟨⟨rfl, _, next_nextOf (by decide)⟩, by decide, _, next_nextOf (by decide)⟩

theorem witness_AmoFrame :
    base.address 7 = 0x2000#32 ∧ base.during = [] ∧
    ∀ i ∈ [Instr.amoswapW 5 7 6 plain, .amoaddW 5 7 6 plain, .amoxorW 5 7 6 plain, .amoandW 5 7 6 plain, .amoorW 5 7 6 plain,
      .amominW 5 7 6 plain, .amomaxW 5 7 6 plain, .amominuW 5 7 6 plain, .amomaxuW 5 7 6 plain], isNext (exec i base) = true := by decide

theorem witness_SlotZeroIsOrdinary :
    (base.x 10 = 0x2000#32 ∧ base.overlapsFrame 0x2000#32 = false ∧ base.ctx.resv ≠ some 0x2000#32 ∧
      (0x2000#32 : Word).extractLsb' 0 2 = 0#2 ∧ base.memValid 0x2000#32 .read = true ∧ base.memValid 0x2000#32 .write = true) ∧
    (reserved.ctx.resv = some 0x2000#32 ∧ reserved.overlapsFrame 0x2000#32 = false) ∧
    (let s := start [(0, 0x2000#32)] [] none;
      s.x 0 = 0x2000#32 ∧ s.overlapsFrame 0x2000#32 = false ∧ s.memValid 0x2000#32 .read = true) := by decide

/-- Is the access completed? -/
def completes {α : Type} : PortResult α → Bool
  | .done _ _ => true
  | .failed _ _ _ => false

theorem completed {o : PortResult Unit} (h : completes o = true) : ∃ t, o = .done () t := by
  cases o with
  | done x t => exact ⟨t, rfl⟩
  | failed k a t => cases h

theorem witness_WriteThenReadReturnsTheWord :
    base.mem.wf = true ∧ (∃ t, memWrite 0x2FFC#32 0x12345678#32 base = .done () t) ∧ completes (memRead 0x2FFC#32 base) = true ∧
    base.during = [] ∧ base.isDevice 0x2FFC#32 = false ∧ base.memValid 0x2FFC#32 .read = true :=
  ⟨by decide, completed (by decide), by decide, rfl, by decide, by decide⟩

theorem witness_FailedAccessesChangeNothing :
    (0x2003#32 : Word).extractLsb' 0 2 ≠ 0#2 ∧ (0x4000#32 : Word).extractLsb' 0 2 = 0#2 ∧ base.memValid 0x4000#32 .read = false ∧
    (0x3000#32 : Word).extractLsb' 0 2 = 0#2 ∧ base.memValid 0x3000#32 .write = false := by decide

/-- MemValid as the last statement about the map says: E0 itself is one. -/
theorem witness_EveryMemValidIsSomeMap : base.memMap = mapE0 ∧ base.memValid 0x3FFF#32 .read = true ∧
    base.memValid 0x3FFF#32 .write = false ∧ base.memValid 0x2FFF#32 .write = true ∧ base.memValid 0x0FFF#32 .read = false := by decide

theorem witness_FetchReassemblesFourBytes : (0x1001#32 : Word).getLsbD 0 = true ∧
    (0xFFFFFFFC#32 &&& 0xFFFFFFFC#32 = 0xFFFFFFFC#32 ∧ (0xFFFFFFFC#32 : Word).getLsbD 0 = false) ∧
    (0xFFFFFFFE#32 &&& 0xFFFFFFFC#32 = 0xFFFFFFFC#32 ∧ (0xFFFFFFFE#32 : Word).getLsbD 0 = false) ∧
    (fetchTop.during = [] ∧
      fetchTop.memValid 0xFFFFFFFC#32 .read = true ∧ fetchTop.memValid (0xFFFFFFFC#32 + 4#32) .read = true ∧
      fetchTop.isDevice 0xFFFFFFFC#32 = false ∧ fetchTop.isDevice (0xFFFFFFFC#32 + 4#32) = false) :=
  ⟨by decide, by decide, by decide, by decide⟩

/-- F-5 and F-6. -/
theorem witness_FetchFaultsChangeNothing :
    (0x4000#32 : Word).getLsbD 0 = false ∧ base.during = [] ∧ base.memValid 0x4000#32 .read = false ∧
    (0x3FFC#32 : Word) = 0x3FFE#32 &&& 0xFFFFFFFC#32 ∧ (0x3FFE#32 : Word).getLsbD 0 = false ∧
    base.memValid 0x3FFC#32 .read = true ∧ base.memValid (0x3FFC#32 + 4#32) .read = false := by decide

theorem witness_PcEntryEqualsWordEntry :
    (∃ t, fetch 0xFFFFFFFE#32 fetchTop = .done 0x0063A2AF#32 t) ∧
    isNext (step (fetchTop.withInputs [.request ⟨.word (fetchTop.word 0xFFFFFFFE#32), [], []⟩])) = true ∧
    whyOf (step ({ fetchTop with parked := [Context.reset] }.withInputs
      [.request ⟨.word (fetchTop.word 0xFFFFFFFE#32), [], []⟩])) = some .sharedReservation :=
  ⟨fetched (by decide), by decide, by decide⟩

theorem witness_FetchSeesTheBlocksWrites :
    base.mem.wf = true ∧ (∃ t, memWrite 0x2000#32 0x0063A2AF#32 base = .done () t ∧ t.during = []) ∧
    base.memValid 0x2000#32 .read = true ∧ base.memValid (0x2000#32 + 4#32) .read = true ∧ base.isDevice 0x2000#32 = false ∧
    base.isDevice (0x2000#32 + 4#32) = false :=
  ⟨by decide, ⟨_, rfl, rfl⟩, by decide, by decide, by decide, by decide⟩

/-- A frame at 0xFFFFFFF0, across the end of the address space: its last byte is 0x6F. -/
theorem witness_FrameOverlapIsRefused :
    (∃ j k : Nat, j < 4 ∧ k < 128 ∧ (0x6F#32 : Word) + BitVec.ofNat 32 j = 0xFFFFFFF0#32 + BitVec.ofNat 32 k) ∧
    (∃ j k : Nat, j < 4 ∧ k < 128 ∧ (0xFFFFFFED#32 : Word) + BitVec.ofNat 32 j = 0xFFFFFFF0#32 + BitVec.ofNat 32 k) ∧
    (∀ j k : Nat, j < 4 → k < 128 → (0x80#32 : Word) + BitVec.ofNat 32 j ≠ 0#32 + BitVec.ofNat 32 k) := by
  refine ⟨⟨0, 127, by decide, by decide, by decide⟩, ⟨3, 0, by decide, by decide, by decide⟩, fun j k hj hk e => ?_⟩
  have e := congrArg BitVec.toNat e
  simp only [BitVec.toNat_add, BitVec.toNat_ofNat] at e
  omega

theorem witness_BrokenContractsAreRefused :
    (let s : State := { base with parked := [Context.reset], inputs := [.request ⟨.word 0x13#32, [], []⟩] };
      s.sharesReservation = true) ∧
    (let s : State := { base with parked := [{ Context.reset with resvId := 1 }, { Context.reset with resvId := 1 }] };
      s.sharesReservation = true) ∧
    (let s := base.withInputs [.request ⟨.word 0x13#32, [], [.pc 0x1000#32]⟩];
      s.sharesReservation = false ∧ ([.pc 0x1000#32] : List Entry) ≠ []) ∧
    (base.withInputs [.request ⟨.pc 0x1003#32, [], []⟩]).sharesReservation = false ∧ (0x1003#32 : Word).getLsbD 0 = true := by decide

theorem witness_ResetInputFreesOnlyTheReservation :
    (base.withInputs [.reset]).inputs = .reset :: [] ∧ base.inputs = [] := by decide

theorem witness_TrapSavesRegistersInTheFrame :
    (base.withInputs [.trap base.ctx.frame 0x1000#32 none]).inputs = .trap base.ctx.frame 0x1000#32 none :: [] := by decide

/-- The last byte of memory. -/
theorem witness_OrdinaryStoreKeepsReservation :
    (base.withInputs [.store [⟨0xFFFFFFFF#32, 9#8⟩]]).inputs = .store [⟨0xFFFFFFFF#32, 9#8⟩] :: [] ∧ base.mem.wf = true := by decide

theorem witness_TrapReturnFollowsTheResponse :
    ((after 0x0063A2AF#32 base).withInputs [.resume]).inputs = .resume :: [] ∧
    (after 0x0063A2AF#32 base).ctx.response = some .handled ∧ (after 0x13#32 base).ctx.response = some .declined ∧
    (after 0x0063A2AF#32 (at_ 0x4000#32)).ctx.response = some (.fault .accessFault 0x4000#32) := by decide

/-- Two contexts, each with its own reservation register. -/
def two : State := { base with parked := [{ Context.reset with resvId := 1, resv := some 0x2000#32 }] }

theorem witness_OtherContextsAreIsolated : isNext (step (two.offerWord 0x0063A2AF#32)) = true ∧
    isNext (runEntry (.word 0x0063A2AF#32) two) = true ∧ whyOf (runEntry (.pc 0x1001#32) two) = some (.oddPc 0x1001#32) := by decide

theorem witness_SwitchExchangesContexts : (two.withInputs [.switch 0]).inputs = .switch 0 :: [] ∧
    two.parked[0]? = some { Context.reset with resvId := 1, resv := some 0x2000#32 } := by decide

/-- An AMO, an ordinary store, a trap's end: none may write the reservation; and the step runs. -/
theorem witness_OnlyLrScResetWriteReservation :
    ∀ xs ∈ ([[.request ⟨.word 0x0063A2AF#32, [], []⟩], [.store [⟨0x2000#32, 1#8⟩]], [.resume], []] : List (List Input)),
      (reserved.withInputs xs).mayWriteReservation = false ∧ isNext (step (reserved.withInputs xs)) = true := by decide

/-- LR of 0x2000, an AMO to that very word, a store to it, and an SC to it, whose hypotheses all hold. -/
def chain : State := base.withInputs [.request ⟨.word 0x100522AF#32, [], []⟩, .request ⟨.word 0x0063A2AF#32, [], []⟩,
  .store [⟨0x2000#32, 0x55#8⟩], .request ⟨.word 0x186523AF#32, [], []⟩]

theorem witness_ScAfterLrSucceeds :
    decodeWord 0x100522AF#32 = .ok (.lrW 5 10 0 plain) ∧ decodeWord 0x186523AF#32 = .ok (.scW 7 10 6 plain) ∧
    ∃ s1 s2, step chain = .next s1 ∧ s1.ctx.response = some .handled ∧ chain.x 10 = 0x2000#32 ∧ QuietRun 2 s1 s2 ∧
      s2.inputs = [.request ⟨.word 0x186523AF#32, [], []⟩] ∧ s2.x 10 = 0x2000#32 ∧ s2.overlapsFrame 0x2000#32 = false ∧
      s2.memValid 0x2000#32 .write = true :=
  ⟨rfl, rfl, _, _, next_nextOf (by decide), by decide, by decide,
    ⟨by decide, _, next_nextOf (by decide), by decide, _, next_nextOf (by decide), rfl⟩, by decide, by decide, by decide, by decide⟩

theorem witness_StepKeepsInvariant : base.mem.wf = true ∧ base.during = [] ∧ base.accesses.length ≤ 4 ∧
    isNext (step (base.offerWord 0x0063A2AF#32)) = true := by decide

end Sys2Proof.Tests
end

/-! ## Stepping: which function a step runs, and when a request gives a next state (R120, R126) -/

section
namespace Sys2Proof.Machine

theorem step_idle {s : State} (h : s.inputs = []) : step s = .next s := by
  simp [step, runNext, h]

theorem step_input {s : State} {x : Input} {xs : List Input} (h : s.inputs = x :: xs) :
    step s = runInput x (s.withInputs xs) := by
  simp [step, runNext, h]

theorem step_offerWord (s : State) (w : Word) : step (s.offerWord w) = runRequest ⟨.word w, [], []⟩ s := rfl

theorem runWord_ok {w : Word} {i : Instr} (h : decodeWord w = .ok i) (s : State) : runWord w s = exec i s := by
  simp [runWord, h]

theorem runWord_error {w : Word} {e : Decline} (h : decodeWord w = .error e) (s : State) :
    runWord w s = .next (s.respond .declined) := by
  simp [runWord, h, State.decline]

theorem runRequest_inContract {s : State} {r : Request} (hs : s.sharesReservation = false) (hn : r.nested = []) :
    runRequest r s = complete (runEntry r.entry (s.accept r)) := by
  simp [runRequest, hs, hn]

theorem complete_next {o : Outcome} {t : State} (h : complete o = .next t) : ∃ u, o = .next u ∧ t = u.settle := by
  cases o with
  | next u => cases h; exact ⟨u, rfl, rfl⟩
  | fault f => cases h
  | refused r => cases h

theorem runRequest_next {r : Request} {s t : State} (h : runRequest r s = .next t) :
    ∃ u, runEntry r.entry (s.accept r) = .next u ∧ t = u.settle := by
  cases hs : s.sharesReservation
  · by_cases hn : r.nested = []
    · exact complete_next (by rwa [runRequest_inContract hs hn] at h)
    · simp [runRequest, hs, hn] at h
  · simp [runRequest, hs] at h

/-- The two ways to a next state from a PC entry: a failed fetch read (R84), or the run of the fetched word (R85). -/
theorem runEntry_pc_next {p : Word} {s t : State} (h : runEntry (.pc p) s = .next t) :
    (∃ kind b u, fetch p s = .failed kind b u ∧ t = u.respond (.fault kind b)) ∨
      ∃ w u, fetch p s = .done w u ∧ runWord w u = .next t := by
  unfold runEntry at h
  cases hp : p.getLsbD 0
  · simp only [hp, Bool.false_eq_true, if_false] at h
    cases hf : fetch p s with
    | failed kind b u =>
      rw [hf] at h
      cases h
      exact .inl ⟨kind, b, u, rfl, rfl⟩
    | done w u => exact .inr ⟨w, u, rfl, by rwa [hf] at h⟩
  · simp only [hp, if_true] at h
    cases h

theorem requestWord_word {s : State} {r : Request} {w : Word} (h : r.entry = .word w) : s.requestWord r = some w := by
  simp [State.requestWord, h]

theorem requestWord_pc {s u : State} {r : Request} {p w : Word} (h : r.entry = .pc p)
    (hf : fetch p (s.accept r) = .done w u) : s.requestWord r = some w := by
  simp [State.requestWord, h, hf]

/-- What a return from a trap leaves alone, whatever the response was (R26, R136). -/
theorem trapReturn_keeps (s : State) :
    s.trapReturn.ctx.resv = s.ctx.resv ∧ s.trapReturn.ctx.resvId = s.ctx.resvId ∧ s.trapReturn.parked = s.parked ∧
      s.trapReturn.mem = s.mem ∧ s.trapReturn.during = s.during ∧ s.trapReturn.accesses = s.accesses := by
  unfold State.trapReturn
  split <;> exact ⟨rfl, rfl, rfl, rfl, rfl, rfl⟩

theorem switchTo_next {s t : State} {k : Nat} (h : s.switchTo k = .next t) :
    ∃ c, s.parked[k]? = some c ∧ t = { s with ctx := c, parked := s.parked.set k s.ctx } := by
  cases hk : s.parked[k]? with
  | none => simp [State.switchTo, hk] at h
  | some c => exact ⟨c, rfl, by simpa [State.switchTo, hk] using h.symm⟩

end Sys2Proof.Machine
end

/-! ## Frames: what each operation leaves unchanged (R20, R21) -/

section
namespace Sys2Proof.Machine

section
variable {rd : Reg} {s t : State}

/-! `KeepsOutside` goes through every update of an operation; only `setX` touches a slot, and that is `rd`. -/

theorem KeepsOutside.refl (rd : Reg) (s : State) : KeepsOutside rd s s :=
  ⟨fun _ _ => rfl, rfl, rfl, rfl, rfl, rfl, rfl, rfl, rfl⟩

theorem KeepsOutside.issue (h : KeepsOutside rd s t) (x : Access) : KeepsOutside rd s (t.issue x) := h
theorem KeepsOutside.drawn (h : KeepsOutside rd s t) (a : Word) : KeepsOutside rd s (t.drawn a) := h
theorem KeepsOutside.putWord (h : KeepsOutside rd s t) (a v : Word) : KeepsOutside rd s (t.putWord a v) := h
theorem KeepsOutside.reserve (h : KeepsOutside rd s t) (a : Word) : KeepsOutside rd s (t.reserve a) := h
theorem KeepsOutside.free (h : KeepsOutside rd s t) : KeepsOutside rd s t.free := h
theorem KeepsOutside.respond (h : KeepsOutside rd s t) (r : Response) : KeepsOutside rd s (t.respond r) := h

theorem KeepsOutside.setX (h : KeepsOutside rd s t) (v : Word) : KeepsOutside rd s (t.setX rd v) := by
  obtain ⟨hx, hrest⟩ := h
  exact ⟨fun i hi => (State.x_setX_other t rd i v hi).trans (hx i hi), hrest⟩

end

theorem othersStored_alone (n : Nat) (s : State) (h : s.during = []) : State.othersStored n s = s := by
  induction n with
  | zero => rfl
  | succ n ih => rw [State.othersStored, State.land_alone s h, ih]

theorem othersStored_wf (n : Nat) (s : State) (h : s.mem.wf = true) : (State.othersStored n s).mem.wf = true := by
  induction n generalizing s with
  | zero => exact h
  | succ n ih => exact ih s.land (State.land_wf s h)

/-- What one operation does to the state but for `x[rd]`, the reservation and the response: at most two accesses, each
letting one batch of other agents land, and at most the word at `a` written, if `mayStore`. -/
structure OpFrame (rd : Reg) (a : Word) (mayStore : Prop) (s t : State) : Prop where
  keepsOutside : KeepsOutside rd s t
  memory : ∃ n ≤ 2, t.accesses.length = s.accesses.length + n ∧
    (t.mem = (State.othersStored n s).mem ∨ mayStore ∧ ∃ v, t.mem = (State.othersStored n s).mem.setWord a v)

theorem OpFrame.byte {rd : Reg} {a b : Word} {mayStore : Prop} {s t : State} (h : OpFrame rd a mayStore s t)
    (hb : OutsideWord a b ∨ ¬ mayStore) :
    t.byte b = (State.othersStored (t.accesses.length - s.accesses.length) s).byte b ∧
      (s.during = [] → t.byte b = s.byte b) := by
  obtain ⟨n, -, hlen, hmem⟩ := h.memory
  have hbyte : t.byte b = (State.othersStored n s).byte b := by
    rcases hmem with hm | ⟨hst, v, hm⟩
    · simp [State.byte, hm]
    · have hout : OutsideWord a b := hb.resolve_right (not_not_intro hst)
      rw [State.byte, hm, Memory.setWord_outside _ _ _ _ hout, State.byte]
  rw [hlen, Nat.add_sub_cancel_left]
  exact ⟨hbyte, fun hd => by rw [hbyte, othersStored_alone n s hd]⟩

theorem OpFrame.wf {rd : Reg} {a : Word} {mayStore : Prop} {s t : State} (h : OpFrame rd a mayStore s t)
    (hs : s.mem.wf = true) : t.mem.wf = true := by
  obtain ⟨n, -, -, hmem | ⟨-, v, hmem⟩⟩ := h.memory
  · exact hmem ▸ othersStored_wf n s hs
  · exact hmem ▸ Memory.setWord_wf _ a v (othersStored_wf n s hs)

/-- R90: an LR makes its one read and stores nothing. -/
theorem loadReserved_frame {rd rs1 : Reg} {s t : State} (h : loadReserved rd rs1 s = .next t) :
    OpFrame rd (s.x rs1) False s t := by
  have start := (KeepsOutside.refl rd s).reserve (s.x rs1)
  rcases loadReserved_cases rd rs1 s with ⟨-, he⟩ | ⟨-, kind, -, he⟩ | ⟨-, -, -, he⟩ <;> cases he.symm.trans h
  case inr.inl => exact ⟨(start.issue _).respond _, 1, by decide, by simp, .inl rfl⟩
  case inr.inr => exact ⟨(((start.issue _).drawn _).setX _).respond _, 1, by decide, by simp, .inl rfl⟩

/-- R91: an SC makes at most its one write, and only on a matching reservation. -/
theorem storeConditional_frame {rd rs1 rs2 : Reg} {s t : State} (h : storeConditional rd rs1 rs2 s = .next t) :
    OpFrame rd (s.x rs1) (s.ctx.resv = some (s.x rs1)) s t := by
  have start := KeepsOutside.refl rd s
  rcases storeConditional_cases rd rs1 rs2 s with ⟨-, he⟩ | ⟨-, -, kind, -, he⟩ | ⟨-, hr, -, -, he⟩ | ⟨-, -, he⟩ <;>
    cases he.symm.trans h
  case inr.inl => exact ⟨(start.issue _).respond _, 1, by decide, by simp, .inl rfl⟩
  case inr.inr.inl =>
    exact ⟨((((start.issue _).putWord _ _).setX _).free).respond _, 1, by decide, by simp, .inr ⟨hr, s.x rs2, rfl⟩⟩
  case inr.inr.inr => exact ⟨((start.setX _).free).respond _, 0, by decide, by simp, .inl rfl⟩

/-- R100: an AMO makes its read and, where that completes, its write; the word is written only where both complete. -/
theorem amo_frame {f : Word → Word → Word} {rd rs1 rs2 : Reg} {s t : State} (h : amo f rd rs1 rs2 s = .next t) :
    OpFrame rd (s.x rs1) True s t := by
  have start := KeepsOutside.refl rd s
  rcases amo_cases f rd rs1 rs2 s with ⟨-, he⟩ | ⟨-, kind, -, he⟩ | ⟨-, -, -, -, he⟩ | ⟨-, -, -, -, he⟩ <;>
    cases he.symm.trans h
  case inr.inl => exact ⟨(start.issue _).respond _, 1, by decide, by simp, .inl rfl⟩
  case inr.inr.inl =>
    exact ⟨((((start.issue _).drawn _).setX _).issue _).respond _, 2, by decide, by simp, .inl rfl⟩
  case inr.inr.inr =>
    exact ⟨(((((start.issue _).drawn _).setX _).issue _).putWord _ _).respond _, 2, by decide, by simp,
      .inr ⟨trivial, f (s.land.portWord (s.x rs1)) (s.x rs2), rfl⟩⟩

/-- R110: an AMO leaves the reservation alone, faulting or not. -/
theorem amo_keeps_resv {f : Word → Word → Word} {rd rs1 rs2 : Reg} {s t : State} (h : amo f rd rs1 rs2 s = .next t) :
    t.ctx.resv = s.ctx.resv := by
  rcases amo_cases f rd rs1 rs2 s with ⟨-, he⟩ | ⟨-, kind, -, he⟩ | ⟨-, -, -, -, he⟩ | ⟨-, -, -, -, he⟩ <;>
    cases he.symm.trans h <;> rfl

theorem exec_eq_amo {i : Instr} (h : usesReservation i = false) :
    ∃ f, ∀ s, exec i s = amo f i.operands.1 i.operands.2.1 i.operands.2.2 s := by
  rcases exec_shape i with ⟨rd, rs1, rs2, u, rfl, -⟩ | ⟨rd, rs1, rs2, u, rfl, -⟩ | ⟨-, f, rd, rs1, rs2, ho, he⟩
  · cases h
  · cases h
  · exact ⟨f, by simpa only [ho] using he⟩

/-- The nine AMOs over the same operands (R100). -/
def amoInstrs (rd rs1 rs2 : Reg) (u : Unexamined) : List Instr :=
  [.amoswapW rd rs1 rs2 u, .amoaddW rd rs1 rs2 u, .amoxorW rd rs1 rs2 u, .amoandW rd rs1 rs2 u, .amoorW rd rs1 rs2 u,
    .amominW rd rs1 rs2 u, .amomaxW rd rs1 rs2 u, .amominuW rd rs1 rs2 u, .amomaxuW rd rs1 rs2 u]

theorem exec_eq_amo_of_mem {i : Instr} {rd rs1 rs2 : Reg} {u : Unexamined} (h : i ∈ amoInstrs rd rs1 rs2 u) :
    ∃ f, ∀ s, exec i s = amo f rd rs1 rs2 s := by
  have hall : ∀ j ∈ amoInstrs rd rs1 rs2 u, usesReservation j = false ∧ j.operands = (rd, rs1, rs2) := by
    simp [amoInstrs, usesReservation, Instr.operands]
  obtain ⟨huse, hops⟩ := hall i h
  simpa only [hops] using exec_eq_amo huse

theorem exec_frame {i : Instr} {s t : State} (h : exec i s = .next t) : ∃ rd a mayStore, OpFrame rd a mayStore s t := by
  rcases exec_shape i with ⟨rd, rs1, -, -, -, he⟩ | ⟨rd, rs1, rs2, -, -, he⟩ | ⟨-, f, rd, rs1, rs2, -, he⟩ <;> rw [he] at h
  · exact ⟨_, _, _, loadReserved_frame h⟩
  · exact ⟨_, _, _, storeConditional_frame h⟩
  · exact ⟨_, _, _, amo_frame h⟩

/-- Settles O24, from the frame of `loadReserved`: an LR may store nothing. -/
theorem lrFrame : Obligations.LrFrame := by
  intro rd rs1 rs2 u s t h
  have hframe : OpFrame rd (s.x rs1) False s t := loadReserved_frame h
  exact ⟨hframe.keepsOutside, fun b => (hframe.byte (.inr id)).1, fun hd b => (hframe.byte (.inr id)).2 hd⟩

/-- Settles O25, from the frame of `storeConditional`: an SC may store only on a matching reservation. -/
theorem scFrame : Obligations.ScFrame := by
  intro rd rs1 rs2 u s t h
  have hframe := storeConditional_frame (rd := rd) (rs1 := rs1) (rs2 := rs2) h
  refine ⟨hframe.keepsOutside, ?_⟩
  rintro _ rfl b hb
  exact hframe.byte hb

/-- Settles O26, from the frame of `amo`, which is the same for all nine functions. -/
theorem amoFrame : Obligations.AmoFrame := by
  intro i rd rs1 rs2 u s t hi h
  obtain ⟨f, he⟩ := exec_eq_amo_of_mem hi
  rw [he] at h
  have hframe := amo_frame h
  refine ⟨amo_keeps_resv h, hframe.keepsOutside, ?_⟩
  rintro _ rfl b hb
  exact hframe.byte (.inl hb)

end Sys2Proof.Machine
end

/-! ## Requests and steps: what every run keeps (R26, R37, R53, R160) -/

section
namespace Sys2Proof.Machine

/-- What a run of the block with at most `n` accesses keeps. -/
structure RunKeeps (n : Nat) (s t : State) : Prop where
  resvId : t.ctx.resvId = s.ctx.resvId
  parked : t.parked = s.parked
  wf : s.mem.wf = true → t.mem.wf = true
  accesses : t.accesses.length ≤ s.accesses.length + n

theorem RunKeeps.trans {m n : Nat} {s u t : State} (h : RunKeeps m s u) (h' : RunKeeps n u t) : RunKeeps (m + n) s t where
  resvId := h'.resvId.trans h.resvId
  parked := h'.parked.trans h.parked
  wf hs := h'.wf (h.wf hs)
  accesses := by have := h.accesses; have := h'.accesses; omega

theorem RunKeeps.mono {m n : Nat} {s t : State} (h : RunKeeps m s t) (hmn : m ≤ n) : RunKeeps n s t :=
  { h with accesses := by have := h.accesses; omega }

theorem RunKeeps.respond {n : Nat} {s t : State} (h : RunKeeps n s t) (r : Response) : RunKeeps n s (t.respond r) :=
  ⟨h.resvId, h.parked, h.wf, h.accesses⟩

theorem RunKeeps.drawn {n : Nat} {s t : State} (h : RunKeeps n s t) (a : Word) : RunKeeps n s (t.drawn a) :=
  ⟨h.resvId, h.parked, h.wf, h.accesses⟩

theorem RunKeeps.refl (s : State) : RunKeeps 0 s s := ⟨rfl, rfl, id, Nat.le_refl _⟩

theorem RunKeeps.issue {n : Nat} {s t : State} (h : RunKeeps n s t) (x : Access) : RunKeeps (n + 1) s (t.issue x) :=
  h.trans ⟨rfl, rfl, State.land_wf t, by simp⟩

theorem OpFrame.runKeeps {rd : Reg} {a : Word} {mayStore : Prop} {s t : State} (h : OpFrame rd a mayStore s t) :
    RunKeeps 2 s t := by
  obtain ⟨-, hid, -, -, -, hparked, -⟩ := h.keepsOutside
  obtain ⟨n, hn, hlen, -⟩ := h.memory
  exact ⟨hid, hparked, h.wf, by omega⟩

theorem runWord_runKeeps {w : Word} {s t : State} (h : runWord w s = .next t) : RunKeeps 2 s t := by
  cases hw : decodeWord w with
  | ok i =>
    obtain ⟨_, _, _, hframe⟩ := exec_frame ((runWord_ok hw s).symm.trans h)
    exact hframe.runKeeps
  | error e =>
    cases (runWord_error hw s).symm.trans h
    exact ((RunKeeps.refl s).respond _).mono (by decide)

/-- The state that a fetch leaves, failed or not. -/
def PortResult.state {α : Type} : PortResult α → State
  | .done _ s => s
  | .failed _ _ s => s

theorem fetch_runKeeps (p : Word) (s : State) : RunKeeps 2 s (fetch p s).state := by
  have first := (RunKeeps.refl s).issue (.read (fetchBase p))
  rcases fetch_cases p s with ⟨-, he⟩ | ⟨-, -, he⟩ | ⟨-, -, he⟩ <;> rw [he]
  · exact first.mono (by decide)
  · exact (first.drawn _).issue _
  · exact ((first.drawn _).issue _).drawn _

/-- A fetch writes no context (R84, R85). -/
theorem fetch_ctx (p : Word) (s : State) : (fetch p s).state.ctx = s.ctx := by
  rcases fetch_cases p s with ⟨-, he⟩ | ⟨-, -, he⟩ | ⟨-, -, he⟩ <;> rw [he] <;> rfl

theorem runEntry_runKeeps {e : Entry} {s t : State} (h : runEntry e s = .next t) : RunKeeps 4 s t := by
  cases e with
  | word w => exact (runWord_runKeeps h).mono (by decide)
  | pc p =>
    have hfetch := fetch_runKeeps p s
    rcases runEntry_pc_next h with ⟨kind, b, u, hf, rfl⟩ | ⟨w, u, hf, hrun⟩ <;> rw [hf] at hfetch
    · exact (hfetch.mono (by decide)).respond _
    · exact hfetch.trans (runWord_runKeeps hrun)

/-- R26: a word that is neither LR nor SC leaves the reservation alone. -/
theorem runWord_keeps_resv {w : Word} {s t : State} (hw : isLrOrSc w = false) (h : runWord w s = .next t) :
    t.ctx.resv = s.ctx.resv := by
  cases hd : decodeWord w with
  | ok i =>
    obtain ⟨f, he⟩ := exec_eq_amo (i := i) (by simpa [isLrOrSc, hd] using hw)
    rw [runWord_ok hd, he] at h
    exact amo_keeps_resv h
  | error e =>
    cases (runWord_error hd s).symm.trans h
    rfl

/-- R26: so does a request whose word, if it has one, is neither LR nor SC. -/
theorem runRequest_keeps_resv {r : Request} {s t : State} (hw : (s.requestWord r).any isLrOrSc = false)
    (h : runRequest r s = .next t) : t.ctx.resv = s.ctx.resv := by
  obtain ⟨u, hrun, rfl⟩ := runRequest_next h
  suffices hu : u.ctx.resv = (s.accept r).ctx.resv from hu
  cases he : r.entry with
  | word w =>
    rw [he] at hrun
    have hlr : isLrOrSc w = false := by simpa [requestWord_word he] using hw
    exact runWord_keeps_resv hlr hrun
  | pc p =>
    rw [he] at hrun
    have hctx := congrArg Context.resv (fetch_ctx p (s.accept r))
    rcases runEntry_pc_next hrun with ⟨kind, b, v, hf, rfl⟩ | ⟨w, v, hf, hword⟩ <;> rw [hf] at hctx
    · exact hctx
    · have hlr : isLrOrSc w = false := by simpa [requestWord_pc he hf] using hw
      exact (runWord_keeps_resv hlr hword).trans hctx

theorem runRequest_keeps_contexts {r : Request} {s t : State} (h : runRequest r s = .next t) :
    t.ctx.resvId = s.ctx.resvId ∧ t.parked = s.parked := by
  obtain ⟨u, hrun, rfl⟩ := runRequest_next h
  exact ⟨(runEntry_runKeeps hrun).resvId, (runEntry_runKeeps hrun).parked⟩

/-- Every input keeps the invariant. A request needs of it only the canonical memory: it starts the list of accesses anew
and lets all of its stores land. -/
theorem runInput_keeps_inv {x : Input} {s t : State} (hs : s.Inv) (h : runInput x s = .next t) : t.Inv := by
  obtain ⟨hwf, hduring, haccesses⟩ := hs
  cases x with
  | reset => cases h; exact ⟨hwf, hduring, haccesses⟩
  | request r =>
    obtain ⟨u, hrun, rfl⟩ := runRequest_next h
    have hkeeps := runEntry_runKeeps hrun
    exact ⟨State.settle_wf u (hkeeps.wf hwf), rfl, by simpa using hkeeps.accesses⟩
  | trap regs pc copyAt => cases h; exact ⟨hwf, hduring, haccesses⟩
  | resume =>
    cases h
    obtain ⟨-, -, -, hmem, hd, ha⟩ := trapReturn_keeps s
    exact ⟨hmem ▸ hwf, hd.trans hduring, ha ▸ haccesses⟩
  | store b => cases h; exact ⟨Memory.applyBatch_wf s.mem b hwf, hduring, haccesses⟩
  | switch k =>
    obtain ⟨c, -, rfl⟩ := switchTo_next h
    exact ⟨hwf, hduring, haccesses⟩

/-- Settles O44: input by input; a request by `runRequest_keeps_resv`. -/
theorem onlyLrScResetWriteReservation : Obligations.OnlyLrScResetWriteReservation := by
  intro s t hq h
  cases hin : s.inputs with
  | nil =>
    cases (step_idle hin).symm.trans h
    exact ⟨rfl, rfl, rfl⟩
  | cons x xs =>
    rw [step_input hin] at h
    rw [State.mayWriteReservation, hin] at hq
    cases x with
    | reset => cases hq
    | request r => exact ⟨runRequest_keeps_resv (s := s.withInputs xs) hq h, runRequest_keeps_contexts (s := s.withInputs xs) h⟩
    | trap regs pc copyAt => cases h; exact ⟨rfl, rfl, rfl⟩
    | resume =>
      cases h
      obtain ⟨hresv, hid, hparked, -⟩ := trapReturn_keeps (s.withInputs xs)
      exact ⟨hresv, hid, hparked⟩
    | store b => cases h; exact ⟨rfl, rfl, rfl⟩
    | switch k => cases hq

/-- Settles O47: by the input that the step takes. -/
theorem stepKeepsInvariant : Obligations.StepKeepsInvariant := by
  intro s t hs h
  cases hin : s.inputs with
  | nil => cases (step_idle hin).symm.trans h; exact hs
  | cons x xs =>
    rw [step_input hin] at h
    exact runInput_keeps_inv (s := s.withInputs xs) hs h

/-- Settles O46: at reset memory, stores and accesses are empty. -/
theorem resetMeetsInvariant : Obligations.ResetMeetsInvariant := ⟨State.reset_mem_wf, rfl, Nat.zero_le _⟩

/-- Settles O43: the list of the others changes at `k` only. -/
theorem switchExchangesContexts : Obligations.SwitchExchangesContexts := by
  intro s xs k c hin hk
  have hlt : k < s.parked.length := (List.getElem?_eq_some_iff.mp hk).1
  have hrun : (s.withInputs xs).switchTo k =
      .next { s.withInputs xs with ctx := c, parked := s.parked.set k s.ctx } := by
    simp [State.switchTo, hk]
  refine ⟨_, (step_input hin).trans hrun, rfl, List.getElem?_set_self hlt, fun j hj => ?_, rfl⟩
  exact List.getElem?_set_ne (Ne.symm hj)

theorem tableWord_toNat (w : Word) : tableWord 32 w.toNat = w := by
  simp [tableWord, Nat.mod_eq_of_lt w.isLt]

/-- Settles O8: the step takes the request that was put first. -/
theorem placedWordRunsNext : Obligations.PlacedWordRunsNext := by
  intro s w i hs hw
  rw [State.withFetchWord, tableWord_toNat, step_offerWord, runRequest_inContract hs rfl]
  exact congrArg complete (runWord_ok hw _)

end Sys2Proof.Machine
end

/-! ## Completed operations, as equations, and slot 0 (R22, R90, R91, R100) -/

section
namespace Sys2Proof.Machine

theorem misaligned_eq_false {a : Word} (h : a.extractLsb' 0 2 = 0#2) : misaligned a = false := by
  simp [misaligned, h]

theorem not_failsAs {a : Word} {s : State} {d : Dir} {kind : FaultKind} (ha : misaligned a = false)
    (hv : s.memValid a d = true) : ¬ FailsAs a s d kind := by
  simp [FailsAs, ha, hv]

theorem loadReserved_completes {rd rs1 : Reg} {s : State} (ho : s.overlapsFrame (s.x rs1) = false)
    (ha : misaligned (s.x rs1) = false) (hv : s.memValid (s.x rs1) .read = true) :
    loadReserved rd rs1 s =
      .next (((((s.reserve (s.x rs1)).issue (.read (s.x rs1))).drawn (s.x rs1)).setX rd
        (s.land.portWord (s.x rs1))).respond .handled) := by
  rcases loadReserved_cases rd rs1 s with ⟨ho', -⟩ | ⟨-, kind, hk, -⟩ | ⟨-, -, -, he⟩
  · simp [ho] at ho'
  · exact absurd hk (not_failsAs ha hv)
  · exact he

theorem storeConditional_completes {rd rs1 rs2 : Reg} {s : State} (ho : s.overlapsFrame (s.x rs1) = false)
    (hr : s.ctx.resv = some (s.x rs1)) (ha : misaligned (s.x rs1) = false) (hv : s.memValid (s.x rs1) .write = true) :
    storeConditional rd rs1 rs2 s =
      .next (((((s.issue (.write (s.x rs1) (s.x rs2))).putWord (s.x rs1) (s.x rs2)).setX rd 0#32).free).respond
        .handled) := by
  rcases storeConditional_cases rd rs1 rs2 s with ⟨ho', -⟩ | ⟨-, -, kind, hk, -⟩ | ⟨-, -, -, -, he⟩ | ⟨-, hr', -⟩
  · simp [ho] at ho'
  · exact absurd hk (not_failsAs ha hv)
  · exact he
  · exact absurd hr hr'

theorem storeConditional_unmatched {rd rs1 rs2 : Reg} {s : State} (ho : s.overlapsFrame (s.x rs1) = false)
    (hr : s.ctx.resv ≠ some (s.x rs1)) :
    storeConditional rd rs1 rs2 s = .next (((s.setX rd 1#32).free).respond .handled) := by
  rcases storeConditional_cases rd rs1 rs2 s with ⟨ho', -⟩ | ⟨-, hr', -⟩ | ⟨-, hr', -⟩ | ⟨-, -, he⟩
  · simp [ho] at ho'
  · exact absurd hr' hr
  · exact absurd hr' hr
  · exact he

theorem amo_completes {f : Word → Word → Word} {rd rs1 rs2 : Reg} {s : State} (ho : s.overlapsFrame (s.x rs1) = false)
    (ha : misaligned (s.x rs1) = false) (hr : s.memValid (s.x rs1) .read = true)
    (hw : s.memValid (s.x rs1) .write = true) :
    amo f rd rs1 rs2 s =
      .next ((((((s.issue (.read (s.x rs1))).drawn (s.x rs1)).setX rd (s.land.portWord (s.x rs1))).issue
        (.write (s.x rs1) (f (s.land.portWord (s.x rs1)) (s.x rs2)))).putWord (s.x rs1)
          (f (s.land.portWord (s.x rs1)) (s.x rs2))).respond .handled) := by
  rcases amo_cases f rd rs1 rs2 s with ⟨ho', -⟩ | ⟨-, kind, hk, -⟩ | ⟨-, -, -, hw', -⟩ | ⟨-, -, -, -, he⟩
  · simp [ho] at ho'
  · exact absurd hk (not_failsAs ha hr)
  · simp [hw] at hw'
  · exact he

/-- Settles O27: the completed operations at `rd = 0`, a slot as any other. -/
theorem slotZeroIsOrdinary : Obligations.SlotZeroIsOrdinary := by
  rintro rs1 rs2 u s _ rfl ho
  refine ⟨fun hr => ?_, fun hr ha hv => ?_, fun ha hv => ?_, fun ha hv hw i hi => ?_⟩
  · exact ⟨_, storeConditional_unmatched ho hr, by simp⟩
  · exact ⟨_, storeConditional_completes ho hr (misaligned_eq_false ha) hv, by simp, rfl⟩
  · exact ⟨_, loadReserved_completes ho (misaligned_eq_false ha) hv, by simp⟩
  · obtain ⟨f, he⟩ := exec_eq_amo_of_mem hi
    exact ⟨_, (he s).trans (amo_completes ho (misaligned_eq_false ha) hv hw), by simp⟩

end Sys2Proof.Machine
end

/-! ## The memory port: words read back, failures change nothing (R40 to R43, R49, R56) -/

section
namespace Sys2Proof.Machine

theorem misaligned_eq_true {a : Word} (h : a.extractLsb' 0 2 ≠ 0#2) : misaligned a = true := by
  simp [misaligned, h]

/-- A word that was written reads back (R40, R41). -/
theorem Memory.getWord_setWord (m : Memory) (a v : Word) (h : m.wf = true) : (m.setWord a v).getWord a = v := by
  obtain ⟨h0, h1, h2, h3⟩ := Memory.setWord_bytes m a v h
  rw [Memory.getWord, h0, h1, h2, h3, wordOfBytes_byteOfWord]

theorem State.word_putWord (s : State) (a v : Word) (h : s.mem.wf = true) : (s.putWord a v).word a = v :=
  Memory.getWord_setWord s.mem a v h

/-- R49: at an address that is no device, the port answers with the word there. -/
theorem State.portWord_memory {s : State} {a : Word} (h : s.isDevice a = false) : s.portWord a = s.word a := by
  simp [State.portWord, h]

theorem memWrite_done {a v : Word} {s t : State} (h : memWrite a v s = .done () t) :
    misaligned a = false ∧ t = (s.issue (.write a v)).putWord a v := by
  rcases memWrite_cases a v s with ⟨kind, -, he⟩ | ⟨ha, -, he⟩ <;> cases he.symm.trans h
  exact ⟨ha, rfl⟩

theorem memRead_done {a w : Word} {s t : State} (h : memRead a s = .done w t) :
    w = s.land.portWord a ∧ t = (s.issue (.read a)).drawn a := by
  rcases memRead_cases a s with ⟨kind, -, he⟩ | ⟨-, -, he⟩ <;> cases he.symm.trans h
  exact ⟨rfl, rfl⟩

/-- A completed write leaves the word it wrote (R41). -/
theorem memWrite_word {a v : Word} {s t : State} (hwf : s.mem.wf = true) (h : memWrite a v s = .done () t) :
    t.word a = v := by
  obtain ⟨-, rfl⟩ := memWrite_done h
  exact State.word_putWord _ a v (State.land_wf s hwf)

/-- With no store of another agent to come and no device, a read is the word there and only shows at the port. -/
theorem memRead_alone {a : Word} {s : State} (ha : misaligned a = false) (hd : s.during = [])
    (hdev : s.isDevice a = false) (hv : s.memValid a .read = true) :
    memRead a s = .done (s.word a) (s.issue (.read a)) := by
  have hissue : (s.issue (.read a)).isDevice a = false := by simpa using hdev
  rw [memRead_valid a s ha hv, State.drawn_memory _ a hissue, State.land_alone s hd, State.portWord_memory hdev]

/-- Settles O28: the bytes by `Memory.setWord_bytes`, the word by `memWrite_word`. -/
theorem writeThenReadReturnsTheWord : Obligations.WriteThenReadReturnsTheWord := by
  intro a v s t hwf hwrite
  have hword : t.word a = v := memWrite_word hwf hwrite
  obtain ⟨ha, rfl⟩ := memWrite_done hwrite
  refine ⟨Memory.setWord_bytes s.land.mem a v (State.land_wf s hwf), fun b hb => ?_, rfl, ?_, ?_⟩
  · exact Memory.setWord_outside s.land.mem a v b hb
  · intro w t' hread hdev
    obtain ⟨rfl, rfl⟩ := memRead_done hread
    have hland : s.land.isDevice a = false := by simpa using hdev
    exact ⟨rfl, State.portWord_memory hland⟩
  · intro hd hdev hv
    have hread := memRead_alone ha hd hdev hv
    rw [hword] at hread
    exact ⟨_, hread, (State.issue_mem _ _).trans (State.land_mem_alone _ hd)⟩

/-- Settles O29: misaligned before invalid, one lemma of the port for each failure. -/
theorem failedAccessesChangeNothing : Obligations.FailedAccessesChangeNothing := by
  intro a v s
  refine ⟨fun ha => ?_, fun ha hv => ?_, fun ha hv => ?_, fun x => ⟨s.issue_mem x, s.issue_ctx x⟩⟩
  · exact ⟨memRead_misaligned a s (misaligned_eq_true ha), memWrite_misaligned a v s (misaligned_eq_true ha)⟩
  · exact memRead_invalid a s (misaligned_eq_false ha) hv
  · exact memWrite_invalid a v s (misaligned_eq_false ha) hv

/-- Settles O41: the step sets one byte of memory. -/
theorem ordinaryStoreKeepsReservation : Obligations.OrdinaryStoreKeepsReservation := by
  intro s xs a v hwf hin
  refine ⟨_, step_input hin, ?_, fun b hb => ?_, rfl, rfl⟩
  · exact Memory.get_set_same s.mem a.toNat v hwf
  · exact Memory.get_set_other s.mem a.toNat b.toNat v (toNat_ne_of_ne hb)

/-- Settles O23: the batch between the accesses lands before the write, which stores the sum over it. -/
theorem storeBetweenReadAndWriteIsLost : Obligations.StoreBetweenReadAndWriteIsLost := by
  rintro rd rs1 rs2 u s _ b rfl hwf ho ha hr hw hdev hd
  have hrun := amo_completes (f := addWord) (rd := rd) (rs2 := rs2) ho (misaligned_eq_false ha) hr hw
  have hread : s.land.portWord (s.x rs1) = s.word (s.x rs1) := by
    rw [State.portWord_memory (by simpa using hdev), State.land_batch s [] [b] hd]
    rfl
  rw [hread] at hrun
  have hland : s.land.land.mem.wf = true := State.land_wf _ (State.land_wf s hwf)
  exact ⟨_, hrun, by simp, Memory.getWord_setWord s.land.land.mem _ _ hland⟩

/-! ### MemValid is open (R50, D19) -/

theorem Region.covers_iff (r : Region) (a : Word) :
    r.covers a = true ↔ r.base ≤ a.toNat ∧ a.toNat < r.base + r.size := by
  simp [Region.covers]

/-- The region of the one address `a`, with the directions that `valid` accepts there. -/
def Region.single (valid : Word → Dir → Bool) (a : Word) : Region :=
  { base := a.toNat, size := 1, readable := valid a .read, writable := valid a .write, device := false }

theorem Region.single_covers (valid : Word → Dir → Bool) (b a : Word) :
    (Region.single valid b).covers a = true ↔ a = b := by
  rw [Region.covers_iff, BitVec.toNat_eq]
  simp only [Region.single]
  omega

theorem Region.single_permits (valid : Word → Dir → Bool) (a : Word) (d : Dir) :
    (Region.single valid a).permits d = valid a d := by
  cases d <;> rfl

/-- One region for each address. -/
def regionsOf (valid : Word → Dir → Bool) : List Region :=
  (List.finRange (2 ^ 32)).map fun k => Region.single valid (BitVec.ofFin k)

theorem mem_regionsOf {valid : Word → Dir → Bool} {r : Region} :
    r ∈ regionsOf valid ↔ ∃ a, r = Region.single valid a := by
  rw [regionsOf, List.mem_map]
  constructor
  · rintro ⟨k, -, rfl⟩
    exact ⟨_, rfl⟩
  · rintro ⟨a, rfl⟩
    exact ⟨a.toFin, List.mem_finRange _, rfl⟩

/-- Settles O30: the list of one-address regions, of which only `a`'s speaks of `a`. -/
theorem everyMemValidIsSomeMap : Obligations.EveryMemValidIsSomeMap := by
  intro valid
  refine ⟨regionsOf valid, fun s a d hmap => ?_⟩
  rw [State.memValid, hmap, Bool.eq_iff_iff, List.any_eq_true]
  simp only [Bool.and_eq_true]
  constructor
  · rintro ⟨r, hr, hcovers, hpermits⟩
    obtain ⟨b, rfl⟩ := mem_regionsOf.mp hr
    cases (Region.single_covers valid b a).mp hcovers
    rwa [Region.single_permits] at hpermits
  · intro hv
    refine ⟨Region.single valid a, mem_regionsOf.mpr ⟨a, rfl⟩, (Region.single_covers valid a a).mpr rfl, ?_⟩
    rwa [Region.single_permits]

end Sys2Proof.Machine
end

/-! ## What a request fetches and accesses (R46, R58, R80 to R85) -/

section
namespace Sys2Proof.Machine

theorem runEntry_oddPc {p : Word} (hp : p.getLsbD 0 = true) (s : State) :
    runEntry (.pc p) s = .refused (.oddPc p) := by
  simp [runEntry, hp]

/-- R85: an even program counter whose fetch completes runs the fetched word. -/
theorem runEntry_fetched {p w : Word} {s t : State} (hp : p.getLsbD 0 = false) (hf : fetch p s = .done w t) :
    runEntry (.pc p) s = runWord w t := by
  rw [runEntry, hp, hf]
  rfl

/-- What a completed fetch leaves: it stores nothing itself, lets two batches of other agents' stores land, and makes its
two reads, the lower first (R46, R85). -/
theorem fetch_done {p w : Word} {s t : State} (h : fetch p s = .done w t) :
    t.ctx = s.ctx ∧ t.parked = s.parked ∧ t.memMap = s.memMap ∧ t.mem = s.land.land.mem ∧
      t.accesses = s.accesses ++ [.read (fetchBase p), .read (fetchBase p + 4#32)] := by
  rcases fetch_cases p s with ⟨-, he⟩ | ⟨-, -, he⟩ | ⟨-, -, he⟩ <;> cases he.symm.trans h
  exact ⟨rfl, rfl, rfl, rfl, by simp⟩

/-! ### The fetch of an aligned word (R58, R80) -/

/-- R42: bits 0 and 1 of an aligned address are clear. -/
theorem getLsbD_of_aligned {a : Word} {i : Nat} (h : misaligned a = false) (hi : i < 2) : a.getLsbD i = false := by
  have hlow : a.extractLsb' 0 2 = 0#2 := by simpa [misaligned] using h
  simpa [hi] using congrArg (·.getLsbD i) hlow

/-- The mask of R80 clears bits 0 and 1 and no other. -/
theorem fetchBase_of_aligned {a : Word} (h : misaligned a = false) : fetchBase a = a := by
  have hmask : ∀ i < 32, (0xFFFFFFFC#32 : Word).getLsbD i = decide (2 ≤ i) := by decide
  apply BitVec.eq_of_getLsbD_eq
  intro i hi
  rw [fetchBase, BitVec.getLsbD_and, hmask i hi]
  by_cases h2 : i < 2
  · rw [getLsbD_of_aligned h h2, Bool.false_and]
  · simp [Nat.le_of_not_lt h2]

/-- At offset 0 the buffer's low word is the result. -/
theorem reassemble_zero (w0 w1 : Word) : reassemble w0 w1 0 = w0 := by
  apply BitVec.eq_of_getLsbD_eq
  intro i hi
  simp only [reassemble, BitVec.getLsbD_extractLsb', BitVec.getLsbD_append, Nat.mul_zero, Nat.zero_add, hi,
    decide_true, Bool.true_and, if_true]

/-- With no store of another agent to come, no device and both words readable, an aligned fetch gives the word there. -/
theorem fetch_aligned {a : Word} {s : State} (ha : misaligned a = false) (hd : s.during = [])
    (hv : s.memValid a .read = true) (hv4 : s.memValid (a + 4#32) .read = true) (hdev : s.isDevice a = false) :
    ∃ t, fetch a s = .done (s.word a) t := by
  have hfetch := fetch_cases a s
  rw [fetchBase_of_aligned ha, BitVec.sub_self, State.land_alone s hd, State.portWord_memory hdev] at hfetch
  rcases hfetch with ⟨hv', -⟩ | ⟨-, hv', -⟩ | ⟨-, -, he⟩
  · simp [hv] at hv'
  · simp [hv4] at hv'
  · exact ⟨_, he.trans (by rw [BitVec.toNat_zero, reassemble_zero])⟩

/-- Settles O34: the fetch of an aligned word is the word there, which is the one written. -/
theorem fetchSeesTheBlocksWrites : Obligations.FetchSeesTheBlocksWrites := by
  intro a v s t hwf hwrite hd hv hv4 hdev _
  obtain ⟨ha, -⟩ := memWrite_done hwrite
  obtain ⟨u, hf⟩ := fetch_aligned ha hd hv hv4 hdev
  rw [memWrite_word hwf hwrite] at hf
  obtain ⟨hctx, -, -, hmem, -⟩ := fetch_done hf
  refine ⟨u, hf, runEntry_fetched (getLsbD_of_aligned ha (by decide)) hf, ?_, hctx⟩
  rw [hmem, State.land_alone t hd, State.land_alone t hd]

/-! ### The accesses of a completed operation (R46, R47) -/

/-- An LR that is answered `Handled` has taken the last of its three ways (R90). -/
theorem loadReserved_handled {rd rs1 : Reg} {s t : State} (h : loadReserved rd rs1 s = .next t)
    (hr : t.ctx.response = some .handled) :
    misaligned (s.x rs1) = false ∧
      t = ((((s.reserve (s.x rs1)).issue (.read (s.x rs1))).drawn (s.x rs1)).setX rd
        (s.land.portWord (s.x rs1))).respond .handled := by
  rcases loadReserved_cases rd rs1 s with ⟨-, he⟩ | ⟨-, kind, -, he⟩ | ⟨-, ha, -, he⟩ <;> cases he.symm.trans h
  case inr.inl => cases hr
  case inr.inr => exact ⟨ha, rfl⟩

/-- On a match the store is the one access; else there is none (R47). -/
theorem storeConditional_accesses {rd rs1 rs2 : Reg} {s t : State} (h : storeConditional rd rs1 rs2 s = .next t)
    (hr : t.ctx.response = some .handled) :
    (s.ctx.resv = some (s.x rs1) → t.accesses = s.accesses ++ [.write (s.x rs1) (s.x rs2)]) ∧
      (s.ctx.resv ≠ some (s.x rs1) → t.accesses = s.accesses) := by
  rcases storeConditional_cases rd rs1 rs2 s with ⟨-, he⟩ | ⟨-, -, kind, -, he⟩ | ⟨-, hm, -, -, he⟩ | ⟨-, hm, he⟩ <;>
    cases he.symm.trans h
  case inr.inl => cases hr
  case inr.inr.inl => exact ⟨fun _ => rfl, fun hne => absurd hm hne⟩
  case inr.inr.inr => exact ⟨fun heq => absurd heq hm, fun _ => rfl⟩

/-- A completed AMO writes what its access says, over what other agents stored before that access. -/
theorem amo_accesses {f : Word → Word → Word} {rd rs1 rs2 : Reg} {s t : State} (h : amo f rd rs1 rs2 s = .next t)
    (hr : t.ctx.response = some .handled) :
    ∃ new, t.accesses = s.accesses ++ [.read (s.x rs1), .write (s.x rs1) new] ∧
      t.mem = s.land.land.mem.setWord (s.x rs1) new := by
  rcases amo_cases f rd rs1 rs2 s with ⟨-, he⟩ | ⟨-, kind, -, he⟩ | ⟨-, -, -, -, he⟩ | ⟨-, -, -, -, he⟩ <;>
    cases he.symm.trans h
  case inr.inl => cases hr
  case inr.inr.inl => cases hr
  case inr.inr.inr => exact ⟨f (s.land.portWord (s.x rs1)) (s.x rs2), by simp, rfl⟩

/-- Settles O12: a row of R46 for each kind of operation, and the fetch reads. -/
theorem accessesFollowTheTable : Obligations.AccessesFollowTheTable := by
  refine ⟨?_, fun w s t e hw h => ?_, ?_⟩
  · rintro i s t h hr _ rfl
    refine ⟨?_, ?_, ?_, fun hother => ?_⟩
    · rintro rd rs1 rs2 u rfl
      obtain ⟨-, rfl⟩ := loadReserved_handled (rd := rd) h hr
      rfl
    · rintro rd rs1 rs2 u rfl
      exact (storeConditional_accesses (rd := rd) h hr).1
    · rintro rd rs1 rs2 u rfl
      exact (storeConditional_accesses (rd := rd) h hr).2
    · rcases exec_shape i with ⟨rd, rs1, rs2, u, hi, -⟩ | ⟨rd, rs1, rs2, u, hi, -⟩ | ⟨-, f, rd, rs1, rs2, ho, he⟩
      · exact absurd hi (hother rd rs1 rs2 u).1
      · exact absurd hi (hother rd rs1 rs2 u).2
      · rw [ho]
        exact amo_accesses ((he s).symm.trans h) hr
  · cases (runWord_error hw s).symm.trans h
    rfl
  · rintro pc w _ s t rfl hp hf
    obtain ⟨-, -, -, -, haccesses⟩ := fetch_done hf
    exact ⟨haccesses, runEntry_fetched hp hf⟩

end Sys2Proof.Machine
end

/-! ## Forward progress: an SC after an LR of the same address (R57) -/

section
namespace Sys2Proof.Machine

theorem step_request {s : State} {r : Request} {xs : List Input} (h : s.inputs = .request r :: xs) :
    step s = runRequest r (s.withInputs xs) := step_input h

theorem keepsContract_iff (r : Request) :
    r.keepsContract = true ↔ r.nested = [] ∧ ∀ p, r.entry = .pc p → p.getLsbD 0 = false := by
  cases he : r.entry <;> simp [Request.keepsContract, he]

/-- A request that gives a next state was in the contract (R135 items 1, 3 and 4). -/
theorem runRequest_next_inContract {r : Request} {s t : State} (h : runRequest r s = .next t) :
    s.sharesReservation = false ∧ r.keepsContract = true := by
  cases hs : s.sharesReservation with
  | true => simp [runRequest, hs] at h
  | false =>
    refine ⟨rfl, (keepsContract_iff r).mpr ?_⟩
    by_cases hn : r.nested = []
    · refine ⟨hn, fun p he => ?_⟩
      rw [runRequest_inContract hs hn, he] at h
      cases hp : p.getLsbD 0
      · rfl
      · rw [runEntry_oddPc hp] at h
        cases h
    · simp [runRequest, hs, hn] at h

/-- In the contract a request runs its word, given or fetched, in the accepted context and the same memory map (R86, R85). -/
theorem runRequest_runs_requestWord {r : Request} {s : State} {w : Word} (hs : s.sharesReservation = false)
    (hc : r.keepsContract = true) (hw : s.requestWord r = some w) :
    ∃ u, u.ctx = (s.accept r).ctx ∧ u.memMap = s.memMap ∧ runRequest r s = complete (runWord w u) := by
  obtain ⟨hn, heven⟩ := (keepsContract_iff r).mp hc
  rw [runRequest_inContract hs hn]
  cases he : r.entry with
  | word v =>
    cases (requestWord_word he).symm.trans hw
    exact ⟨s.accept r, rfl, rfl, rfl⟩
  | pc p =>
    cases hf : fetch p (s.accept r) with
    | failed kind b u => simp [State.requestWord, he, hf] at hw
    | done v u =>
      cases (requestWord_pc he hf).symm.trans hw
      obtain ⟨hctx, -, hmap, -, -⟩ := fetch_done hf
      exact ⟨u, hctx, hmap, congrArg complete (runEntry_fetched (heven p he) hf)⟩

theorem sharesReservation_congr {s t : State} (hid : t.ctx.resvId = s.ctx.resvId) (hp : t.parked = s.parked) :
    t.sharesReservation = s.sharesReservation := by
  rw [State.sharesReservation, hid, hp, State.sharesReservation]

theorem overlapsFrame_congr {s t : State} (h : t.ctx.frameCopy = s.ctx.frameCopy) (a : Word) :
    t.overlapsFrame a = s.overlapsFrame a := by
  rw [State.overlapsFrame, h, State.overlapsFrame]

/-- R90: a step whose word is an LR, and that completes, leaves the address reserved; the address is aligned. -/
theorem step_lr_reserves {s t : State} {r : Request} {xs : List Input} {w : Word} {rd rs1 rs2 : Reg} {u : Unexamined}
    (hin : s.inputs = .request r :: xs) (hw : (s.withInputs xs).requestWord r = some w)
    (hd : decodeWord w = .ok (.lrW rd rs1 rs2 u)) (h : step s = .next t) (hresp : t.ctx.response = some .handled) :
    t.ctx.resv = some (s.x rs1) ∧ misaligned (s.x rs1) = false ∧ t.sharesReservation = false := by
  rw [step_request hin] at h
  obtain ⟨hs, hc⟩ := runRequest_next_inContract h
  obtain ⟨hid, hparked⟩ := runRequest_keeps_contexts h
  obtain ⟨v, hctx, -, hrun⟩ := runRequest_runs_requestWord hs hc hw
  rw [hrun, runWord_ok hd] at h
  obtain ⟨t', hlr, rfl⟩ := complete_next h
  have hx : v.x rs1 = s.x rs1 := State.x_congr (congrArg Context.frame hctx) rs1
  obtain ⟨ha, rfl⟩ := loadReserved_handled (rd := rd) hlr hresp
  exact ⟨congrArg some hx, hx ▸ ha, (sharesReservation_congr hid hparked).trans hs⟩

/-- A quiet run keeps the reservation and who else is wired to it, by R26 at each step. -/
theorem quietRun_keeps {k : Nat} {s t : State} (h : QuietRun k s t) :
    t.ctx.resv = s.ctx.resv ∧ t.sharesReservation = s.sharesReservation := by
  induction k generalizing s with
  | zero => cases h; exact ⟨rfl, rfl⟩
  | succ k ih =>
    obtain ⟨hq, v, hstep, hrest⟩ := h
    obtain ⟨hresv, hid, hparked⟩ := onlyLrScResetWriteReservation s v hq hstep
    obtain ⟨hresv', hshares⟩ := ih hrest
    exact ⟨hresv'.trans hresv, hshares.trans (sharesReservation_congr hid hparked)⟩

/-- R91: a step whose word is an SC to the reserved address, aligned, writable and outside the in-memory frame, succeeds. -/
theorem step_sc_succeeds {s : State} {r : Request} {xs : List Input} {w : Word} {rd rs1 rs2 : Reg} {u : Unexamined}
    (hin : s.inputs = .request r :: xs) (hs : s.sharesReservation = false) (hc : r.keepsContract = true)
    (hw : (s.withInputs xs).requestWord r = some w) (hd : decodeWord w = .ok (.scW rd rs1 rs2 u))
    (hr : s.ctx.resv = some (s.x rs1)) (ha : misaligned (s.x rs1) = false) (ho : s.overlapsFrame (s.x rs1) = false)
    (hv : s.memValid (s.x rs1) .write = true) :
    ∃ t, step s = .next t ∧ t.ctx.response = some .handled ∧ t.x rd = 0#32 ∧ t.ctx.resv = none := by
  obtain ⟨v, hctx, hmap, hrun⟩ := runRequest_runs_requestWord (s := s.withInputs xs) hs hc hw
  have hx : v.x rs1 = s.x rs1 := State.x_congr (congrArg Context.frame hctx) rs1
  have hr' : v.ctx.resv = some (v.x rs1) := by rw [hx, hctx]; exact hr
  have ho' : v.overlapsFrame (v.x rs1) = false := by
    rw [hx, overlapsFrame_congr (congrArg Context.frameCopy hctx)]; exact ho
  have hv' : v.memValid (v.x rs1) .write = true := by rw [hx, State.memValid_congr hmap]; exact hv
  have hsc : exec (.scW rd rs1 rs2 u) v = _ := storeConditional_completes ho' hr' (hx ▸ ha) hv'
  have hstep := (step_request hin).trans hrun
  rw [runWord_ok hd, hsc] at hstep
  exact ⟨_, hstep, rfl, by simp, rfl⟩

/-- Settles O45: the LR reserves, every quiet step keeps the reservation, and so the SC matches. -/
theorem scAfterLrSucceeds : Obligations.ScAfterLrSucceeds := by
  rintro s s1 s2 r r2 xs ys w w2 a rd rs1 rs2 rd2 rs12 rs22 u u2 k hin hw hd hstep hresp rfl hquiet
    hin2 hc hw2 hd2 ha2 ho hv
  obtain ⟨hresv, haligned, hshares⟩ := step_lr_reserves hin hw hd hstep hresp
  obtain ⟨hresv', hshares'⟩ := quietRun_keeps hquiet
  rw [← ha2] at hresv haligned ho hv
  exact step_sc_succeeds hin2 (hshares'.trans hshares) hc hw2 hd2 (hresv'.trans hresv) haligned ho hv

end Sys2Proof.Machine
end

/-! ## The decoder, by the fields of a word (R61 to R66) -/

section
namespace Sys2Proof.Machine
open Sys2Proof.Laws

/-! ### Words seen through a mask -/

/-- Words that agree under a mask agree in every field that the mask covers. -/
theorem extractLsb'_eq_of_mask {w w' m : Word} (h : w &&& m = w' &&& m) {start len : Nat}
    (hm : m.extractLsb' start len = BitVec.allOnes len) : w.extractLsb' start len = w'.extractLsb' start len := by
  simpa [BitVec.extractLsb'_and, hm] using congrArg (·.extractLsb' start len) h

/-- A five-bit field that the mask covers is the same register in words that agree under it. -/
theorem regField_eq_of_mask {w w' m : Word} (h : w &&& m = w' &&& m) {start : Nat}
    (hm : m.extractLsb' start 5 = BitVec.allOnes 5) : (w.extractLsb' start 5).toFin = (w'.extractLsb' start 5).toFin :=
  congrArg BitVec.toFin (extractLsb'_eq_of_mask h hm)

/-- Words that agree under a mask agree under every mask it covers. -/
theorem and_eq_of_submask {w w' m n : Word} (h : w &&& m = w' &&& m) (hn : m &&& n = n) : w &&& n = w' &&& n := by
  rw [← hn, ← BitVec.and_assoc, h, BitVec.and_assoc]

/-! ### What the decoder answers (R61, R64, R66) -/

theorem isAtomic_iff (w : Word) : isAtomic w = true ↔ w.extractLsb' 0 7 = 0b0101111#7 := by
  rw [isAtomic, beq_iff_eq, atomicOpcode]

/-- The three classes of R66, with the decoder's answer in each. -/
theorem decodeWord_cases (w : Word) :
    (isAtomic w = false ∧ decodeWord w = .error .notAtomic) ∨
      (isAtomic w = true ∧ selectorMap.lookup (selectorField w) = none ∧
        decodeWord w = .error (.unknownSelector (selectorField w))) ∨
      (isAtomic w = true ∧ ∃ op, selectorMap.lookup (selectorField w) = some op ∧
        decodeWord w = .ok (op (rdField w) (rs1Field w) (rs2Field w) (unexaminedField w))) := by
  cases ha : isAtomic w with
  | false => exact .inl ⟨rfl, by simp [decodeWord, ha]⟩
  | true =>
    cases hs : selectorMap.lookup (selectorField w) with
    | none => exact .inr (.inl ⟨rfl, rfl, by simp [decodeWord, ha, hs]⟩)
    | some op => exact .inr (.inr ⟨rfl, op, rfl, by simp [decodeWord, ha, hs]⟩)

theorem decodeWord_notAtomic_iff (w : Word) : decodeWord w = .error .notAtomic ↔ isAtomic w = false := by
  rcases decodeWord_cases w with ⟨ha, he⟩ | ⟨ha, -, he⟩ | ⟨ha, op, -, he⟩ <;> simp [ha, he]

theorem decodeWord_unknownSelector_iff (w : Word) (sel : BitVec 5) :
    decodeWord w = .error (.unknownSelector sel) ↔
      isAtomic w = true ∧ selectorField w = sel ∧ selectorMap.lookup sel = none := by
  rcases decodeWord_cases w with ⟨ha, he⟩ | ⟨ha, hs, he⟩ | ⟨ha, op, hs, he⟩
  · simp [ha, he]
  · rw [he]
    constructor
    · rintro ⟨⟩
      exact ⟨ha, rfl, hs⟩
    · rintro ⟨-, rfl, -⟩
      rfl
  · rw [he]
    constructor
    · rintro ⟨⟩
    · rintro ⟨-, rfl, hnone⟩
      cases hs.symm.trans hnone

theorem decodeWord_ok_iff (w : Word) (i : Instr) :
    decodeWord w = .ok i ↔ isAtomic w = true ∧ ∃ op, selectorMap.lookup (selectorField w) = some op ∧
      i = op (rdField w) (rs1Field w) (rs2Field w) (unexaminedField w) := by
  rcases decodeWord_cases w with ⟨ha, he⟩ | ⟨-, hs, he⟩ | ⟨ha, op, hs, he⟩
  · simp [ha, he]
  · simp [hs, he]
  · simp [ha, hs, he, eq_comm]

/-! ### The selectors (R64, R65) -/

/-- R65: the 21 selectors that the map does not hold. -/
theorem lookup_eq_none_iff_mem (sel : BitVec 5) : selectorMap.lookup sel = none ↔
    sel ∈ [0b00101#5, 0b00110#5, 0b00111#5, 0b01001#5, 0b01010#5, 0b01011#5, 0b01101#5, 0b01110#5, 0b01111#5,
      0b10001#5, 0b10010#5, 0b10011#5, 0b10101#5, 0b10110#5, 0b10111#5, 0b11001#5, 0b11010#5, 0b11011#5, 0b11101#5,
      0b11110#5, 0b11111#5] := by
  rw [← Option.isNone_iff_eq_none]
  revert sel
  decide

/-- R64: the eleven selectors that the map holds. -/
theorem exists_lookup_eq_some_iff_mem (sel : BitVec 5) : (∃ op, selectorMap.lookup sel = some op) ↔
    sel ∈ [0b00010#5, 0b00011#5, 0b00001#5, 0b00000#5, 0b00100#5, 0b01100#5, 0b01000#5, 0b10000#5, 0b10100#5,
      0b11000#5, 0b11100#5] := by
  rw [← Option.isSome_iff_exists]
  revert sel
  decide

/-- Settles O3: the class by the opcode and the selector map, whose gaps and entries are the two lists. -/
theorem wordsFallInThreeClasses : Obligations.WordsFallInThreeClasses := by
  intro w
  refine ⟨isAtomic_iff w, ?_, fun sel => ?_, ?_, fun e s he => runWord_error he s, fun i s hi => runWord_ok hi s⟩
  · rw [decodeWord_notAtomic_iff, Ne, ← isAtomic_iff, Bool.not_eq_true]
  · rw [decodeWord_unknownSelector_iff, isAtomic_iff, lookup_eq_none_iff_mem, selectorField]
  · rw [← isAtomic_iff, ← exists_lookup_eq_some_iff_mem]
    simp only [decodeWord_ok_iff]
    constructor
    · rintro ⟨_, ha, op, hs, -⟩
      exact ⟨ha, op, hs⟩
    · rintro ⟨ha, op, hs⟩
      exact ⟨_, ha, op, hs, rfl⟩

/-! ### Match values (R64) -/

/-- The mask of R64 covers the opcode. -/
theorem isAtomic_eq_of_mask {w w' : Word} (h : w &&& OpcodeRow.mask = w' &&& OpcodeRow.mask) :
    isAtomic w = isAtomic w' := by
  rw [isAtomic, extractLsb'_eq_of_mask h (by decide), isAtomic]

/-- The mask of R64 covers the selector. -/
theorem selectorField_eq_of_mask {w w' : Word} (h : w &&& OpcodeRow.mask = w' &&& OpcodeRow.mask) :
    selectorField w = selectorField w' :=
  extractLsb'_eq_of_mask h (by decide)

/-- A word that shows the match value `m` decodes to the operation that the selector map has for `m`, on its own
operands. -/
theorem decodeWord_of_matchValue {w m : Word} {op : Reg → Reg → Reg → Unexamined → Instr}
    (h : w &&& OpcodeRow.mask = m) (hm : m &&& OpcodeRow.mask = m) (ha : isAtomic m = true)
    (hs : selectorMap.lookup (selectorField m) = some op) :
    decodeWord w = .ok (op (rdField w) (rs1Field w) (rs2Field w) (unexaminedField w)) := by
  have hrow : w &&& OpcodeRow.mask = m &&& OpcodeRow.mask := h.trans hm.symm
  rw [← isAtomic_eq_of_mask hrow] at ha
  rw [← selectorField_eq_of_mask hrow] at hs
  exact (decodeWord_ok_iff w _).mpr ⟨ha, op, hs, rfl⟩

/-- Settles O2: each match value shows the opcode and the selector of its own row. -/
theorem matchValueSelectsInstruction : Obligations.MatchValueSelectsInstruction := by
  intro w
  and_intros <;> exact fun h => ⟨_, decodeWord_of_matchValue h rfl rfl rfl⟩

/-! ### Unexamined bits (R63) -/

theorem mem_selectorMap_of_lookup {sel : BitVec 5} {op : Reg → Reg → Reg → Unexamined → Instr}
    (h : selectorMap.lookup sel = some op) : (sel, op) ∈ selectorMap := by
  obtain ⟨l₁, l₂, hmap, -⟩ := List.lookup_eq_some_iff.mp h
  simp [hmap]

/-- No operation of the selector map reads the unexamined bits: row by row. -/
theorem exec_unexamined {row : BitVec 5 × (Reg → Reg → Reg → Unexamined → Instr)} (h : row ∈ selectorMap)
    (rd rs1 rs2 : Reg) (u u' : Unexamined) (s : State) :
    exec (row.2 rd rs1 rs2 u) s = exec (row.2 rd rs1 rs2 u') s := by
  fin_cases h <;> rfl

/-- A word is examined in its opcode, its selector and its three operands only. -/
theorem runWord_congr {w w' : Word} (ha : isAtomic w = isAtomic w') (hsel : selectorField w = selectorField w')
    (hrd : rdField w = rdField w') (hrs1 : rs1Field w = rs1Field w') (hrs2 : rs2Field w = rs2Field w') (s : State) :
    runWord w s = runWord w' s := by
  rcases decodeWord_cases w with ⟨hw, he⟩ | ⟨hw, hs, he⟩ | ⟨hw, op, hs, he⟩
  · have he' := (decodeWord_notAtomic_iff w').mpr (ha ▸ hw)
    rw [runWord_error he, runWord_error he']
  · have he' := (decodeWord_unknownSelector_iff w' _).mpr ⟨ha ▸ hw, rfl, hsel ▸ hs⟩
    rw [runWord_error he, runWord_error he']
  · have he' := (decodeWord_ok_iff w' _).mpr ⟨ha ▸ hw, op, hsel ▸ hs, rfl⟩
    rw [runWord_ok he, runWord_ok he', hrd, hrs1, hrs2]
    exact exec_unexamined (mem_selectorMap_of_lookup hs) _ _ _ _ _ s

/-- An LR's `rs2` field is not read either: two LR words with the same `rd` and `rs1` do the same. -/
theorem runWord_lr_congr {w w' : Word} (h : w &&& OpcodeRow.mask = 0x1000002F#32)
    (h' : w' &&& OpcodeRow.mask = 0x1000002F#32) (hrd : rdField w = rdField w') (hrs1 : rs1Field w = rs1Field w')
    (s : State) : runWord w s = runWord w' s := by
  rw [runWord_ok (decodeWord_of_matchValue h rfl rfl rfl), runWord_ok (decodeWord_of_matchValue h' rfl rfl rfl),
    hrd, hrs1]
  rfl

/-- Settles O6: the first mask covers all that `runWord` examines, the second all that it examines of an LR. -/
theorem unexaminedBitsHaveNoEffect : Obligations.UnexaminedBitsHaveNoEffect := by
  refine fun w w' s => ⟨fun h => ?_, fun hlr h => ?_⟩
  · have hrow : w &&& OpcodeRow.mask = w' &&& OpcodeRow.mask := and_eq_of_submask h (by decide)
    exact runWord_congr (isAtomic_eq_of_mask hrow) (selectorField_eq_of_mask hrow) (regField_eq_of_mask h (by decide))
      (regField_eq_of_mask h (by decide)) (regField_eq_of_mask h (by decide)) s
  · have hrow : w &&& OpcodeRow.mask = w' &&& OpcodeRow.mask := and_eq_of_submask h (by decide)
    exact runWord_lr_congr hlr (hrow.symm.trans hlr) (regField_eq_of_mask h (by decide))
      (regField_eq_of_mask h (by decide)) s

end Sys2Proof.Machine
end

/-! ## Broken contracts are refused first (R81, R28, R135) -/

section
namespace Sys2Proof.Machine

theorem runRequest_shared {r : Request} {s : State} (hs : s.sharesReservation = true) :
    runRequest r s = .refused .sharedReservation := by
  simp [runRequest, hs]

theorem runRequest_reentry {r : Request} {s : State} (hs : s.sharesReservation = false) (hn : r.nested ≠ []) :
    runRequest r s = .refused .reentry := by
  simp [runRequest, hs, hn]

theorem runRequest_oddPc {r : Request} {s : State} {p : Word} (hs : s.sharesReservation = false) (hn : r.nested = [])
    (he : r.entry = .pc p) (hp : p.getLsbD 0 = true) : runRequest r s = .refused (.oddPc p) := by
  rw [runRequest_inContract hs hn, he, runEntry_oddPc hp]
  rfl

/-- Two contexts of a list are wired to one reservation register exactly if their register numbers repeat. -/
theorem not_nodup_resvIds_iff (cs : List Context) : ¬ (cs.map Context.resvId).Nodup ↔
    ∃ j k : Nat, j < k ∧ ∃ c d : Context, cs[j]? = some c ∧ cs[k]? = some d ∧ c.resvId = d.resvId := by
  rw [List.Nodup, List.pairwise_map, List.pairwise_iff_getElem]
  push Not
  constructor
  · rintro ⟨j, k, hj, hk, hjk, heq⟩
    exact ⟨j, k, hjk, cs[j], cs[k], List.getElem?_eq_getElem hj, List.getElem?_eq_getElem hk, heq⟩
  · rintro ⟨j, k, hjk, c, d, hc, hd, heq⟩
    obtain ⟨hj, rfl⟩ := List.getElem?_eq_some_iff.mp hc
    obtain ⟨hk, rfl⟩ := List.getElem?_eq_some_iff.mp hd
    exact ⟨j, k, hj, hk, hjk, heq⟩

/-- R28: a register is shared by the acting context and a parked one, or by two parked ones. -/
theorem sharesReservation_iff (s : State) : s.sharesReservation = true ↔
    (∃ c ∈ s.parked, c.resvId = s.ctx.resvId) ∨
      ∃ j k : Nat, j < k ∧ ∃ c d : Context, s.parked[j]? = some c ∧ s.parked[k]? = some d ∧ c.resvId = d.resvId := by
  rw [State.sharesReservation, Bool.not_eq_true', decide_eq_false_iff_not, List.nodup_cons, Decidable.not_and_iff_or_not,
    not_not, List.mem_map, not_nodup_resvIds_iff]

/-- Settles O36: one refusal of `runRequest` for each broken contract. -/
theorem brokenContractsAreRefused : Obligations.BrokenContractsAreRefused := by
  intro s r xs hin
  rw [step_request hin]
  exact ⟨fun hs => runRequest_shared hs, fun hs hn => runRequest_reentry hs hn,
    fun p hs hn he hp => runRequest_oddPc hs hn he hp, sharesReservation_iff s⟩

end Sys2Proof.Machine
end

/-! ## The fetcher: four bytes at an even program counter, failed reads, and the two entries (R80 to R85) -/

section
namespace Sys2Proof.Machine

/-! ### The four bytes (R80, R82, R83) -/

/-- R80's mask takes the low two bits off the program counter, and they are its offset. -/
theorem fetchBase_add_offset (p : Word) : fetchBase p + (p &&& 3#32) = p := by
  have hmasks : (0xFFFFFFFC#32 ||| 3#32 : Word) = BitVec.allOnes 32 := by decide
  have hdisjoint : fetchBase p &&& (p &&& 3#32) = 0#32 := by
    rw [fetchBase, BitVec.and_comm p 3#32, BitVec.and_assoc, ← BitVec.and_assoc 0xFFFFFFFC#32]
    simp
  rw [BitVec.add_eq_or_of_and_eq_zero _ _ hdisjoint, fetchBase, ← BitVec.and_or_distrib_left, hmasks, BitVec.and_allOnes]

/-- An even program counter stands at its fetch base or two bytes above it (R81, R82). -/
theorem even_eq_fetchBase_or_add_two {p : Word} (hp : p.getLsbD 0 = false) :
    p = fetchBase p ∨ p = fetchBase p + 2#32 := by
  have heven : p.toNat % 2 = 0 := by simpa [BitVec.getLsbD, Nat.testBit_zero] using hp
  have hoffset : (p &&& 3#32).toNat = p.toNat % 4 := Nat.and_two_pow_sub_one_eq_mod p.toNat 2
  have hsmall : p &&& 3#32 = 0#32 ∨ p &&& 3#32 = 2#32 := by
    simp only [BitVec.toNat_eq, hoffset, BitVec.toNat_ofNat]
    omega
  rcases hsmall with h | h
  · left; simpa [h] using (fetchBase_add_offset p).symm
  · right; simpa [h] using (fetchBase_add_offset p).symm

/-- At offset 2 the result is the upper half of the low word below the lower half of the high word. -/
theorem reassemble_two (b0 b1 b2 b3 c0 c1 c2 c3 : Byte) :
    reassemble (wordOfBytes b0 b1 b2 b3) (wordOfBytes c0 c1 c2 c3) 2 = wordOfBytes b2 b3 c0 c1 := by
  apply BitVec.eq_of_getLsbD_eq
  intro i hi
  simp only [reassemble, wordOfBytes, BitVec.getLsbD_extractLsb', BitVec.getLsbD_append]
  grind

/-- Out of the two words at the fetch base, the offset of an even program counter takes the word at that counter. -/
theorem reassemble_getWord (m : Memory) {p : Word} (hp : p.getLsbD 0 = false) :
    reassemble (m.getWord (fetchBase p)) (m.getWord (fetchBase p + 4#32)) (p - fetchBase p).toNat = m.getWord p := by
  rcases even_eq_fetchBase_or_add_two hp with h | h
  · rw [← h, BitVec.sub_self, BitVec.toNat_zero, reassemble_zero]
  · generalize fetchBase p = b at h
    subst h
    have hoffset : (b + 2#32 - b).toNat = 2 := by rw [BitVec.add_comm, BitVec.add_sub_cancel]; rfl
    rw [hoffset, Memory.getWord, Memory.getWord, reassemble_two, Memory.getWord]
    simp only [BitVec.add_assoc, BitVec.reduceAdd]

/-- With no store of another agent to come, both words readable and no device, the fetch at an even program counter gives
the word there, and its two reads only show at the port. -/
theorem fetch_alone {p : Word} {s : State} (hp : p.getLsbD 0 = false) (hd : s.during = [])
    (hv : s.memValid (fetchBase p) .read = true) (hv4 : s.memValid (fetchBase p + 4#32) .read = true)
    (hdev : s.isDevice (fetchBase p) = false) (hdev4 : s.isDevice (fetchBase p + 4#32) = false) :
    fetch p s = .done (s.word p)
      { s with accesses := s.accesses ++ [.read (fetchBase p), .read (fetchBase p + 4#32)] } := by
  obtain ⟨ha, ha4⟩ := fetchBase_aligned p
  have hread := memRead_alone ha hd hdev hv
  have hd4 : (s.issue (.read (fetchBase p))).during = [] := by simp [hd]
  have hread4 := memRead_alone ha4 hd4 (by simpa using hdev4) (by simpa using hv4)
  rw [State.issue_alone _ _ hd4, State.issue_alone s _ hd] at hread4
  simp only [fetch, hread, State.issue_alone s _ hd, hread4, List.append_assoc]
  exact congrArg (PortResult.done · _) (reassemble_getWord s.mem hp)

/-- Settles O31: the word at the program counter is its four bytes. -/
theorem fetchReassemblesFourBytes : Obligations.FetchReassemblesFourBytes := by
  refine ⟨fun pc s hp => runEntry_oddPc hp s, ?_⟩
  rintro pc _ s rfl hp hd hv hv4 hdev hdev4
  exact fetch_alone hp hd hv hv4 hdev hdev4

/-! ### Failed reads (R84) -/

/-- R84: a failed fetch read ends the request with its fault. -/
theorem runEntry_fetchFailed {p b : Word} {kind : FaultKind} {s t : State} (hp : p.getLsbD 0 = false)
    (hf : fetch p s = .failed kind b t) : runEntry (.pc p) s = .next (t.respond (.fault kind b)) := by
  rw [runEntry, hp, hf]
  rfl

/-- Settles O32: the two ways in which a fetch fails. -/
theorem fetchFaultsChangeNothing : Obligations.FetchFaultsChangeNothing := by
  rintro pc _ s rfl hp hd
  rcases fetch_cases pc s with ⟨hv, he⟩ | ⟨hv, hv4, he⟩ | ⟨hv, hv4, -⟩
  · have hrun := runEntry_fetchFailed hp he
    rw [State.issue_alone s _ hd] at hrun
    exact ⟨fun _ => hrun, fun hv' => absurd (hv.symm.trans hv') Bool.false_ne_true⟩
  · refine ⟨fun hv' => absurd (hv'.symm.trans hv) Bool.false_ne_true,
      fun _ _ => ⟨_, runEntry_fetchFailed hp he, rfl, ?_, ?_⟩⟩
    · simp [State.land_alone s hd]
    · simp [fetchBase]
  · exact ⟨fun hv' => absurd (hv'.symm.trans hv) Bool.false_ne_true,
      fun _ hv4' => absurd (hv4'.symm.trans hv4) Bool.false_ne_true⟩

/-! ### Runs behind earlier accesses: no operation looks at what the port has already seen (R46) -/

/-- The state in which the port has seen the accesses `pre` before those it lists. -/
def State.behind (s : State) (pre : List Access) : State := { s with accesses := pre ++ s.accesses }

/-- The result of a port operation, with the accesses `pre` before those its state lists. -/
def PortResult.behind {α : Type} (pre : List Access) : PortResult α → PortResult α
  | .done x t => .done x (t.behind pre)
  | .failed kind a t => .failed kind a (t.behind pre)

/-- The outcome, with the accesses `pre` before those its next state lists. -/
def outcomeBehind (pre : List Access) : Outcome → Outcome
  | .next t => .next (t.behind pre)
  | .fault f => .fault f
  | .refused r => .refused r

section
variable (pre : List Access)

@[simp] theorem x_behind (s : State) (i : Reg) : (s.behind pre).x i = s.x i := rfl
@[simp] theorem overlapsFrame_behind (s : State) (a : Word) : (s.behind pre).overlapsFrame a = s.overlapsFrame a := rfl
@[simp] theorem memValid_behind (s : State) (a : Word) (d : Dir) : (s.behind pre).memValid a d = s.memValid a d := rfl
@[simp] theorem portWord_behind (s : State) (a : Word) : (s.behind pre).portWord a = s.portWord a := rfl

@[simp] theorem issue_behind (s : State) (x : Access) : (s.behind pre).issue x = (s.issue x).behind pre := by
  simp [State.behind, State.issue, State.land]

theorem memRead_behind (a : Word) (s : State) : memRead a (s.behind pre) = (memRead a s).behind pre := by
  simp only [memRead, issue_behind, memValid_behind, portWord_behind]
  split
  · rfl
  · split <;> rfl

theorem memWrite_behind (a v : Word) (s : State) : memWrite a v (s.behind pre) = (memWrite a v s).behind pre := by
  simp only [memWrite, issue_behind, memValid_behind]
  split
  · rfl
  · split <;> rfl

theorem unlessOverlap_behind {s : State} {a : Word} {k k' : Outcome} (h : k' = outcomeBehind pre k) :
    (s.behind pre).unlessOverlap a k' = outcomeBehind pre (s.unlessOverlap a k) := by
  rw [h, State.unlessOverlap, overlapsFrame_behind, State.unlessOverlap]
  split <;> rfl

theorem loadReserved_behind (rd rs1 : Reg) (s : State) :
    loadReserved rd rs1 (s.behind pre) = outcomeBehind pre (loadReserved rd rs1 s) := by
  refine unlessOverlap_behind pre ?_
  have hread : memRead (s.x rs1) ((s.behind pre).reserve (s.x rs1)) = _ := memRead_behind pre _ (s.reserve (s.x rs1))
  simp only [State.address, x_behind, hread]
  cases memRead (s.x rs1) (s.reserve (s.x rs1)) <;> rfl

theorem storeConditional_behind (rd rs1 rs2 : Reg) (s : State) :
    storeConditional rd rs1 rs2 (s.behind pre) = outcomeBehind pre (storeConditional rd rs1 rs2 s) := by
  refine unlessOverlap_behind pre ?_
  have hresv : (s.behind pre).ctx.resv = s.ctx.resv := rfl
  simp only [State.address, State.operand, x_behind, hresv, memWrite_behind]
  by_cases hr : s.ctx.resv = some (s.x rs1)
  · simp only [hr, if_true]
    cases memWrite (s.x rs1) (s.x rs2) s <;> rfl
  · simp only [hr, if_false]
    rfl

theorem amo_behind (f : Word → Word → Word) (rd rs1 rs2 : Reg) (s : State) :
    amo f rd rs1 rs2 (s.behind pre) = outcomeBehind pre (amo f rd rs1 rs2 s) := by
  refine unlessOverlap_behind pre ?_
  simp only [State.address, State.operand, x_behind, memRead_behind]
  cases memRead (s.x rs1) s with
  | failed kind a t => rfl
  | done old t =>
    have hwrite : memWrite (s.x rs1) (f old (t.x rs2)) ((t.behind pre).setX rd old) = _ :=
      memWrite_behind pre _ _ (t.setX rd old)
    simp only [PortResult.behind, x_behind, hwrite]
    cases memWrite (s.x rs1) (f old (t.x rs2)) (t.setX rd old) <;> rfl

/-- The run of a word behind earlier accesses is its run, with those accesses before its own. -/
theorem runWord_behind (w : Word) (s : State) : runWord w (s.behind pre) = outcomeBehind pre (runWord w s) := by
  cases hw : decodeWord w with
  | error e => rw [runWord_error hw, runWord_error hw]; rfl
  | ok i =>
    rw [runWord_ok hw, runWord_ok hw]
    rcases exec_shape i with ⟨rd, rs1, -, -, -, he⟩ | ⟨rd, rs1, rs2, -, -, he⟩ | ⟨-, f, rd, rs1, rs2, -, he⟩ <;>
      rw [he, he]
    · exact loadReserved_behind pre rd rs1 s
    · exact storeConditional_behind pre rd rs1 rs2 s
    · exact amo_behind pre f rd rs1 rs2 s

theorem complete_behind (o : Outcome) : complete (outcomeBehind pre o) = outcomeBehind pre (complete o) := by
  cases o <;> rfl

end

/-! ### The two entries (R85) -/

/-- With no other agent and no device under the fetch, a request by an even program counter does what a request by the word
there does, behind the two fetch reads. -/
theorem runRequest_pc_eq_word {p : Word} {s : State} (hp : p.getLsbD 0 = false)
    (hv : s.memValid (fetchBase p) .read = true) (hv4 : s.memValid (fetchBase p + 4#32) .read = true)
    (hdev : s.isDevice (fetchBase p) = false) (hdev4 : s.isDevice (fetchBase p + 4#32) = false) :
    runRequest ⟨.pc p, [], []⟩ s =
      outcomeBehind [.read (fetchBase p), .read (fetchBase p + 4#32)] (runRequest ⟨.word (s.word p), [], []⟩ s) := by
  cases hs : s.sharesReservation with
  | true => rw [runRequest_shared hs, runRequest_shared hs]; rfl
  | false =>
    have hfetch : fetch p (s.accept ⟨.pc p, [], []⟩) = .done (s.word p)
        ((s.accept ⟨.word (s.word p), [], []⟩).behind [.read (fetchBase p), .read (fetchBase p + 4#32)]) :=
      fetch_alone (s := s.accept ⟨.pc p, [], []⟩) hp rfl hv hv4 hdev hdev4
    rw [runRequest_inContract hs rfl, runRequest_inContract hs rfl, runEntry_fetched hp hfetch, runWord_behind,
      complete_behind]
    rfl

/-- Settles O33: the fetch leaves contexts and memory, and the fetched word runs behind its reads. -/
theorem pcEntryEqualsWordEntry : Obligations.PcEntryEqualsWordEntry := by
  refine ⟨fun pc w s t hp hf => ?_, ?_⟩
  · obtain ⟨hctx, hparked, hmap, hmem, -⟩ := fetch_done hf
    exact ⟨runEntry_fetched hp hf, hctx, hparked, hmem, hmap⟩
  · rintro pc _ s xs rfl hp hv hv4 hdev hdev4 byPc byWord
    have hrun : byPc = outcomeBehind [.read (fetchBase pc), .read (fetchBase pc + 4#32)] byWord :=
      runRequest_pc_eq_word (s := s.withInputs xs) hp hv hv4 hdev hdev4
    exact ⟨fun t ht => by rw [hrun, ht]; rfl, fun r hr => by rw [hrun, hr]; rfl⟩

end Sys2Proof.Machine
end

/-! ## Load-reserved and store-conditional: their rules and the reservation table (R90 to R92) -/

section
namespace Sys2Proof.Machine

/-! ### Failed accesses (R42, R43, R133) -/

theorem failsAs_iff {a : Word} {s : State} {d : Dir} {kind : FaultKind} :
    FailsAs a s d kind ↔ (a.extractLsb' 0 2 ≠ 0#2 ∧ kind = .misalignedData) ∨
      (a.extractLsb' 0 2 = 0#2 ∧ s.memValid a d = false ∧ kind = .accessFault) := by
  simp [FailsAs, misaligned]

/-- R133 orders the two failures, so an access fails as one kind only. -/
theorem failsAs_unique {a : Word} {s : State} {d : Dir} {kind kind' : FaultKind} (h : FailsAs a s d kind)
    (h' : FailsAs a s d kind') : kind' = kind := by
  rcases h with ⟨ha, rfl⟩ | ⟨ha, -, rfl⟩ <;> rcases h' with ⟨ha', rfl⟩ | ⟨ha', -, rfl⟩
  · rfl
  · exact absurd (ha'.symm.trans ha) Bool.false_ne_true
  · exact absurd (ha.symm.trans ha') Bool.false_ne_true
  · rfl

/-- R90: the reservation is set before the read, so it stands where the read fails. -/
theorem loadReserved_faults {rd rs1 : Reg} {s : State} {kind : FaultKind} (ho : s.overlapsFrame (s.x rs1) = false)
    (hk : FailsAs (s.x rs1) s .read kind) :
    loadReserved rd rs1 s =
      .next (((s.reserve (s.x rs1)).issue (.read (s.x rs1))).respond (.fault kind (s.x rs1))) := by
  rcases loadReserved_cases rd rs1 s with ⟨ho', -⟩ | ⟨-, kind', hk', he⟩ | ⟨-, ha, hv, -⟩
  · simp [ho] at ho'
  · rwa [failsAs_unique hk hk'] at he
  · exact absurd hk (not_failsAs ha hv)

/-- R91: the write comes before `x[rd]` and the reservation, so neither is written where it fails. -/
theorem storeConditional_faults {rd rs1 rs2 : Reg} {s : State} {kind : FaultKind}
    (ho : s.overlapsFrame (s.x rs1) = false) (hr : s.ctx.resv = some (s.x rs1)) (hk : FailsAs (s.x rs1) s .write kind) :
    storeConditional rd rs1 rs2 s =
      .next ((s.issue (.write (s.x rs1) (s.x rs2))).respond (.fault kind (s.x rs1))) := by
  rcases storeConditional_cases rd rs1 rs2 s with ⟨ho', -⟩ | ⟨-, -, kind', hk', he⟩ | ⟨-, -, ha, hv, -⟩ | ⟨-, hr', -⟩
  · simp [ho] at ho'
  · rwa [failsAs_unique hk hk'] at he
  · exact absurd hk (not_failsAs ha hv)
  · exact absurd hr hr'

/-! ### The two rules (R90, R91) -/

/-- Settles O13: `loadReserved_completes` and `loadReserved_faults`, with the frame of `loadReserved`. -/
theorem loadReservedFollowsItsRule : Obligations.LoadReservedFollowsItsRule := by
  rintro rd rs1 rs2 u s _ rfl ho
  refine ⟨fun ha hv => ?_, fun kind hk => ?_⟩
  · have hrun := loadReserved_completes (rd := rd) ho (misaligned_eq_false ha) hv
    refine ⟨_, hrun, rfl, by simp, rfl, rfl, rfl, (loadReserved_frame hrun).keepsOutside, fun hd hdev => ⟨?_, ?_⟩⟩
    · simp [State.land_alone s hd, State.portWord_memory hdev]
    · exact State.land_mem_alone s hd
  · have hrun := loadReserved_faults (rd := rd) ho (failsAs_iff.mpr hk)
    exact ⟨_, hrun, rfl, rfl, rfl, rfl, (loadReserved_frame hrun).keepsOutside⟩

/-- Settles O14: an equation of `storeConditional` for each clause, with its frame. -/
theorem storeConditionalFollowsItsRule : Obligations.StoreConditionalFollowsItsRule := by
  rintro rd rs1 rs2 u s _ rfl ho
  refine ⟨fun hr ha hv => ?_, fun hr => ?_, fun kind hr hk => ?_⟩
  · have hrun := storeConditional_completes (rd := rd) (rs2 := rs2) ho hr (misaligned_eq_false ha) hv
    exact ⟨_, hrun, rfl, by simp, rfl, rfl,
      fun hwf => Memory.getWord_setWord s.land.mem _ _ (State.land_wf s hwf),
      fun b hb => Memory.setWord_outside s.land.mem _ _ b hb, rfl, (storeConditional_frame hrun).keepsOutside⟩
  · have hrun := storeConditional_unmatched (rd := rd) (rs2 := rs2) ho hr
    exact ⟨_, hrun, rfl, by simp, rfl, rfl, rfl, rfl, (storeConditional_frame hrun).keepsOutside⟩
  · have hrun := storeConditional_faults (rd := rd) (rs2 := rs2) ho hr (failsAs_iff.mpr hk)
    exact ⟨_, hrun, rfl, hr, rfl, rfl, (storeConditional_frame hrun).keepsOutside⟩

/-! ### The reservation table (R92) -/

/-- The row of LR: `Reserved(a)`, faulting or not. -/
theorem loadReserved_row {rd rs1 : Reg} {s t : State} (h : loadReserved rd rs1 s = .next t) :
    t.ctx.resv = some (s.x rs1) ∧
      (t.ctx.response = some .handled → t.x rd = s.land.portWord (s.x rs1) ∧ t.mem = s.land.mem) := by
  rcases loadReserved_cases rd rs1 s with ⟨-, he⟩ | ⟨-, kind, -, he⟩ | ⟨-, -, -, he⟩ <;> cases he.symm.trans h
  case inr.inl => exact ⟨rfl, nofun⟩
  case inr.inr => exact ⟨rfl, fun _ => ⟨by simp, rfl⟩⟩

/-- The rows of SC: on `Free` or another address, on the same address, and on the same address with a failed write. -/
theorem storeConditional_rows {rd rs1 rs2 : Reg} {s t : State} (h : storeConditional rd rs1 rs2 s = .next t) :
    (s.ctx.resv ≠ some (s.x rs1) →
      t.ctx.response = some .handled ∧ t.ctx.resv = none ∧ t.x rd = 1#32 ∧ t.mem = s.mem) ∧
    (s.ctx.resv = some (s.x rs1) → t.ctx.response = some .handled →
      t.ctx.resv = none ∧ t.x rd = 0#32 ∧ t.mem = s.land.mem.setWord (s.x rs1) (s.x rs2)) ∧
    (s.ctx.resv = some (s.x rs1) → t.ctx.response ≠ some .handled → t.ctx.resv = some (s.x rs1)) := by
  rcases storeConditional_cases rd rs1 rs2 s with ⟨-, he⟩ | ⟨-, hm, kind, -, he⟩ | ⟨-, hm, -, -, he⟩ | ⟨-, hm, he⟩ <;>
    cases he.symm.trans h
  case inr.inl => exact ⟨fun hne => absurd hm hne, fun _ => nofun, fun _ _ => hm⟩
  case inr.inr.inl => exact ⟨fun hne => absurd hm hne, fun _ _ => ⟨rfl, by simp, rfl⟩, fun _ hr => absurd rfl hr⟩
  case inr.inr.inr => exact ⟨fun _ => ⟨rfl, rfl, by simp, rfl⟩, fun heq => absurd heq hm, fun heq => absurd heq hm⟩

/-- The row of an AMO that completes; that it keeps the reservation is `amo_keeps_resv`. -/
theorem amo_handled {f : Word → Word → Word} {rd rs1 rs2 : Reg} {s t : State} (h : amo f rd rs1 rs2 s = .next t)
    (hr : t.ctx.response = some .handled) :
    t.x rd = s.land.portWord (s.x rs1) ∧ ∃ new, t.mem = s.land.land.mem.setWord (s.x rs1) new := by
  obtain ⟨new, -, hmem⟩ := amo_accesses h hr
  refine ⟨?_, new, hmem⟩
  rcases amo_cases f rd rs1 rs2 s with ⟨-, he⟩ | ⟨-, kind, -, he⟩ | ⟨-, -, -, -, he⟩ | ⟨-, -, -, -, he⟩ <;>
    cases he.symm.trans h
  case inr.inl => cases hr
  case inr.inr.inl => cases hr
  case inr.inr.inr => simp

/-- Settles O15: reset, a declined word and a failed fetch by what each runs, then the rows of the three operations. -/
theorem reservationTransitionTable : Obligations.ReservationTransitionTable := by
  refine fun s => ⟨⟨_, rfl, rfl, rfl, rfl⟩, fun w e hw => ⟨_, runWord_error hw s, rfl, rfl, rfl, rfl⟩, ?_, ?_⟩
  · intro pc b kind u hp hf
    have hctx : u.ctx = s.ctx := by simpa [hf, PortResult.state] using fetch_ctx pc s
    exact ⟨_, runEntry_fetchFailed hp hf, rfl, by simp [hctx], by simp [hctx]⟩
  · rintro i t h _ _ _ rfl rfl rfl
    rcases exec_shape i with ⟨rd, rs1, rs2, u, rfl, he⟩ | ⟨rd, rs1, rs2, u, rfl, he⟩ | ⟨huse, f, rd, rs1, rs2, ho, he⟩ <;>
      rw [he] at h
    · exact ⟨fun _ => loadReserved_row h, nofun, fun hother => absurd rfl (hother rs1 u).1⟩
    · exact ⟨nofun, fun _ => storeConditional_rows h, fun hother => absurd rfl (hother rs1 u).2⟩
    · rw [ho]
      refine ⟨?_, ?_, fun _ => ⟨amo_keeps_resv h, amo_handled h⟩⟩
      · rintro ⟨_, _, rfl⟩
        cases huse
      · rintro ⟨_, _, rfl⟩
        cases huse

end Sys2Proof.Machine
end

/-! ## Atomic memory operations: results, faults and the reservation (R100 to R110) -/

section
namespace Sys2Proof.Machine

/-! ### The outcomes other than completion, as equations (R100, R135) -/

theorem amo_overlaps {f : Word → Word → Word} {rd rs1 rs2 : Reg} {s : State} (ho : s.overlapsFrame (s.x rs1) = true) :
    amo f rd rs1 rs2 s = .refused (.frameOverlap (s.x rs1)) :=
  if_pos ho

/-- R100: the read comes first, so where it fails no slot is written. -/
theorem amo_readFaults {f : Word → Word → Word} {rd rs1 rs2 : Reg} {s : State} {kind : FaultKind}
    (ho : s.overlapsFrame (s.x rs1) = false) (hk : FailsAs (s.x rs1) s .read kind) :
    amo f rd rs1 rs2 s = .next ((s.issue (.read (s.x rs1))).respond (.fault kind (s.x rs1))) := by
  rcases amo_cases f rd rs1 rs2 s with ⟨ho', -⟩ | ⟨-, kind', hk', he⟩ | ⟨-, ha, hr, -, -⟩ | ⟨-, ha, hr, -, -⟩
  · simp [ho] at ho'
  · rwa [failsAs_unique hk hk'] at he
  · exact absurd hk (not_failsAs ha hr)
  · exact absurd hk (not_failsAs ha hr)

/-- R100: `x[rd]` is written before memory is, so it holds the old word where the write fails. -/
theorem amo_writeFaults {f : Word → Word → Word} {rd rs1 rs2 : Reg} {s : State} (ho : s.overlapsFrame (s.x rs1) = false)
    (ha : misaligned (s.x rs1) = false) (hr : s.memValid (s.x rs1) .read = true)
    (hw : s.memValid (s.x rs1) .write = false) :
    amo f rd rs1 rs2 s =
      .next (((((s.issue (.read (s.x rs1))).drawn (s.x rs1)).setX rd (s.land.portWord (s.x rs1))).issue
        (.write (s.x rs1) (f (s.land.portWord (s.x rs1)) (s.x rs2)))).respond (.fault .accessFault (s.x rs1))) := by
  rcases amo_cases f rd rs1 rs2 s with ⟨ho', -⟩ | ⟨-, kind, hk, -⟩ | ⟨-, -, -, -, he⟩ | ⟨-, -, -, hw', -⟩
  · simp [ho] at ho'
  · exact absurd hk (not_failsAs ha hr)
  · exact he
  · simp [hw] at hw'

/-- Settles O21: `amo_readFaults` and `amo_writeFaults`, with the frame of `amo`. -/
theorem amoFaultsKeepMemory : Obligations.AmoFaultsKeepMemory := by
  rintro i rd rs1 rs2 u s _ rfl ho hi
  obtain ⟨f, he⟩ := exec_eq_amo_of_mem hi
  simp only [he]
  refine ⟨fun kind hk => ?_, fun ha hr hw => ?_⟩
  · have hrun := amo_readFaults (f := f) (rd := rd) (rs2 := rs2) ho (failsAs_iff.mpr hk)
    exact ⟨_, hrun, rfl, rfl, rfl, rfl, (amo_frame hrun).keepsOutside⟩
  · have hrun := amo_writeFaults (f := f) (rd := rd) (rs2 := rs2) ho (misaligned_eq_false ha) hr hw
    exact ⟨_, hrun, rfl, by simp, rfl, rfl, (amo_frame hrun).keepsOutside⟩

/-! ### The reservation is neither read nor written (R110) -/

/-- The state with the reservation register at `r`. -/
def State.withResv (s : State) (r : Option Word) : State := { s with ctx := { s.ctx with resv := r } }

/-- The outcome, with the reservation register at `r` in its next state. -/
def outcomeWithResv (r : Option Word) : Outcome → Outcome
  | .next t => .next (t.withResv r)
  | .fault f => .fault f
  | .refused why => .refused why

/-- R110: an AMO does not read the reservation, in any of its four cases. -/
theorem amo_withResv (f : Word → Word → Word) (rd rs1 rs2 : Reg) (s : State) (r : Option Word) :
    amo f rd rs1 rs2 (s.withResv r) = outcomeWithResv r (amo f rd rs1 rs2 s) := by
  rcases amo_cases f rd rs1 rs2 s with ⟨ho, he⟩ | ⟨ho, kind, hk, he⟩ | ⟨ho, ha, hr, hw, he⟩ | ⟨ho, ha, hr, hw, he⟩ <;>
    rw [he]
  · exact amo_overlaps (s := s.withResv r) ho
  · exact amo_readFaults (s := s.withResv r) ho hk
  · exact amo_writeFaults (s := s.withResv r) ho ha hr hw
  · exact amo_completes (s := s.withResv r) ho ha hr hw

/-- Settles O22: not written by `amo_keeps_resv`, not read by `amo_withResv`. -/
theorem amoIgnoresTheReservation : Obligations.AmoIgnoresTheReservation := by
  intro i rd rs1 rs2 u s r hi
  obtain ⟨f, he⟩ := exec_eq_amo_of_mem hi
  have hresv : exec i (s.withResv r) = outcomeWithResv r (exec i s) := by
    rw [he, he, amo_withResv]
  refine ⟨fun t ht => ⟨amo_keeps_resv ((he s).symm.trans ht), ?_⟩, fun why hwhy => ?_⟩
  · exact hresv.trans (congrArg (outcomeWithResv r) ht)
  · exact hresv.trans (congrArg (outcomeWithResv r) hwhy)

/-! ### Completion, for any function (R100) -/

/-- An instruction that runs as `amo g` completes with any `f` that is `g` spelled another way. -/
theorem amoCompletesWith_of_exec_eq {op : Reg → Reg → Reg → Unexamined → Instr} {f g : Word → Word → Word}
    (he : ∀ rd rs1 rs2 u s, exec (op rd rs1 rs2 u) s = amo g rd rs1 rs2 s)
    (hf : ∀ old operand, g old operand = f old operand) : AmoCompletesWith op f := by
  obtain rfl : g = f := funext₂ hf
  rintro rd rs1 rs2 u s _ _ rfl rfl ho ha hr hw
  have hrun := amo_completes (f := g) (rd := rd) (rs2 := rs2) ho (misaligned_eq_false ha) hr hw
  have houtside := Memory.setWord_outside s.land.land.mem (s.x rs1) (g (s.land.portWord (s.x rs1)) (s.x rs2))
  refine ⟨_, (he ..).trans hrun, rfl, by simp, rfl, fun hwf => ?_, houtside, rfl, by simp,
    (amo_frame hrun).keepsOutside, fun hd hdev => ?_⟩
  · exact Memory.getWord_setWord _ _ _ (State.land_wf _ (State.land_wf s hwf))
  · have hland := State.land_alone s hd
    exact ⟨by rw [hland, State.portWord_memory hdev],
      fun b hb => (houtside b hb).trans (by rw [hland, hland, State.byte])⟩

/-- Settles O16: each of the four instructions is `amo` with its function. -/
theorem amoSwapAndBitwiseResults : Obligations.AmoSwapAndBitwiseResults :=
  ⟨amoCompletesWith_of_exec_eq (fun _ _ _ _ _ => rfl) fun _ _ => rfl,
    amoCompletesWith_of_exec_eq (fun _ _ _ _ _ => rfl) fun _ _ => rfl,
    amoCompletesWith_of_exec_eq (fun _ _ _ _ _ => rfl) fun _ _ => rfl,
    amoCompletesWith_of_exec_eq (fun _ _ _ _ _ => rfl) fun _ _ => rfl⟩

/-! ### The arithmetic functions over integers and naturals (R102, R106 to R109) -/

theorem addWord_eq_ofNat_mod (a b : Word) : addWord a b = BitVec.ofNat 32 ((a.toNat + b.toNat) % 4294967296) :=
  BitVec.eq_of_toNat_eq (by simp [addWord])

theorem minWord_eq_ofInt_min (a b : Word) : minWord a b = BitVec.ofInt 32 (min a.toInt b.toInt) := by
  by_cases h : a.toInt < b.toInt
  · simp [minWord, signedLess, h, min_eq_left h.le]
  · simp [minWord, signedLess, h, min_eq_right (not_lt.mp h)]

theorem maxWord_eq_ofInt_max (a b : Word) : maxWord a b = BitVec.ofInt 32 (max a.toInt b.toInt) := by
  by_cases h : a.toInt < b.toInt
  · simp [maxWord, signedLess, h, max_eq_right h.le]
  · simp [maxWord, signedLess, h, max_eq_left (not_lt.mp h)]

theorem minuWord_eq_ofNat_min (a b : Word) : minuWord a b = BitVec.ofNat 32 (min a.toNat b.toNat) := by
  by_cases h : a.toNat < b.toNat
  · simp [minuWord, unsignedLess, h, min_eq_left h.le]
  · simp [minuWord, unsignedLess, h, min_eq_right (not_lt.mp h)]

theorem maxuWord_eq_ofNat_max (a b : Word) : maxuWord a b = BitVec.ofNat 32 (max a.toNat b.toNat) := by
  by_cases h : a.toNat < b.toNat
  · simp [maxuWord, unsignedLess, h, max_eq_right h.le]
  · simp [maxuWord, unsignedLess, h, max_eq_left (not_lt.mp h)]

/-- Settles O17, by the sum over naturals. -/
theorem amoAddWrapsModulo : Obligations.AmoAddWrapsModulo :=
  amoCompletesWith_of_exec_eq (fun _ _ _ _ _ => rfl) addWord_eq_ofNat_mod

/-- Settles O18, by the minimum and the maximum over integers. -/
theorem amoSignedMinMaxResults : Obligations.AmoSignedMinMaxResults :=
  ⟨amoCompletesWith_of_exec_eq (fun _ _ _ _ _ => rfl) minWord_eq_ofInt_min,
    amoCompletesWith_of_exec_eq (fun _ _ _ _ _ => rfl) maxWord_eq_ofInt_max⟩

/-- Settles O19, by the minimum and the maximum over naturals. -/
theorem amoUnsignedMinMaxResults : Obligations.AmoUnsignedMinMaxResults :=
  ⟨amoCompletesWith_of_exec_eq (fun _ _ _ _ _ => rfl) minuWord_eq_ofNat_min,
    amoCompletesWith_of_exec_eq (fun _ _ _ _ _ => rfl) maxuWord_eq_ofNat_max⟩

/-! ### The two minima (R106, R108) -/

/-- The two orders agree on words of one sign and are opposite on words of two. -/
theorem signedLess_eq_xor_unsignedLess (a b : Word) : signedLess a b = ((a.msb != b.msb) ^^ unsignedLess a b) :=
  BitVec.slt_eq_ult

/-- Settles O20: on differing sign bits the two orders pick different words, and the words differ in those bits. -/
theorem minuDiffersFromMinOnSigns : Obligations.MinuDiffersFromMinOnSigns := by
  intro a b
  rw [minuWord, minWord, signedLess_eq_xor_unsignedLess]
  by_cases hsign : a.msb = b.msb
  · simp [hsign]
  · have hne : a ≠ b := fun h => hsign (congrArg BitVec.msb h)
    cases unsignedLess a b <;> simp [hsign, hne, hne.symm]

end Sys2Proof.Machine
end

/-! ## The driver: a decoded word runs, any other is declined (R120 to R125), and the end of the trap (R124, R136) -/

section
namespace Sys2Proof.Machine

/-! ### A request in the contract -/

theorem step_request_inContract {s : State} {r : Request} {xs : List Input} (h : s.inputs = .request r :: xs)
    (hs : s.sharesReservation = false) (hn : r.nested = []) :
    step s = complete (runEntry r.entry ((s.withInputs xs).accept r)) :=
  (step_request h).trans (runRequest_inContract hs hn)

/-- Settles O7: in the contract the step runs the entry, which runs the word, which runs its instruction. -/
theorem stepRunsDecodedInstruction : Obligations.StepRunsDecodedInstruction := by
  intro s r xs i hin hs hn
  have hstep := step_request_inContract hin hs hn
  refine ⟨fun w he hd => ?_, fun p w t he hp hf hd => ?_⟩ <;> rw [he] at hstep
  · exact hstep.trans (congrArg complete (runWord_ok hd _))
  · rw [hstep, runEntry_fetched hp hf, runWord_ok hd]

/-! ### Declined words (R121, R122) -/

theorem exists_decodeWord_error_iff (w : Word) :
    (∃ e, decodeWord w = .error e) ↔ isAtomic w = false ∨ selectorMap.lookup (selectorField w) = none := by
  rcases decodeWord_cases w with ⟨ha, he⟩ | ⟨-, hs, he⟩ | ⟨ha, op, hs, he⟩
  · simp [ha, he]
  · simp [hs, he]
  · simp [ha, hs, he]

/-- The batch that lands before an access would have landed first of the batches left over. -/
theorem State.settle_land (s : State) : s.land.settle = s.settle := by
  cases hd : s.during with
  | nil => rw [State.land_alone s hd]
  | cons b bs => rw [State.land_batch s b bs hd, State.settle, State.settle, hd, List.foldl_cons]

theorem State.settle_issue_mem (s : State) (x : Access) : (s.issue x).settle.mem = s.settle.mem :=
  (congrArg State.mem s.settle_land :)

/-- A fetch stores nothing: when all that other agents store has landed, memory is what it would be without it. -/
theorem fetch_settle_mem (p : Word) (s : State) : (fetch p s).state.settle.mem = s.settle.mem := by
  have first := s.settle_issue_mem (.read (fetchBase p))
  have second := ((s.issue (.read (fetchBase p))).drawn (fetchBase p)).settle_issue_mem (.read (fetchBase p + 4#32))
  rcases fetch_cases p s with ⟨-, he⟩ | ⟨-, -, he⟩ | ⟨-, -, he⟩ <;> rw [he]
  · exact first
  · exact second.trans first
  · exact second.trans first

/-- Settles O10: no selector of R65 is in the map, so the word is an error of the decoder, which the driver declines; the
fetch of a PC entry adds its two reads. -/
theorem unrecognizedWordsAreDeclined : Obligations.UnrecognizedWordsAreDeclined := by
  intro s w d xs hs hw
  obtain ⟨e, he⟩ : ∃ e, decodeWord w = .error e := by
    rw [exists_decodeWord_error_iff, ← Bool.not_eq_true, isAtomic_iff, lookup_eq_none_iff_mem]
    exact hw
  refine ⟨fun hin => ?_, fun pc u hin hp hf => ?_⟩ <;> rw [step_request_inContract hin hs rfl]
  · exact congrArg complete (runWord_error he _)
  · have hrun := congrArg complete ((runEntry_fetched hp hf).trans (runWord_error he u))
    have hmem := fetch_settle_mem pc ((s.withInputs xs).accept ⟨.pc pc, d, []⟩)
    rw [hf] at hmem
    obtain ⟨hctx, hparked, -, -, haccesses⟩ := fetch_done hf
    exact ⟨_, hrun, congrArg (fun c : Context => { c with response := some .declined }) hctx, hparked, hmem, haccesses⟩

/-! ### Ending the trap (R124, R136) -/

theorem Context.restored_zero (c : Context) : c.restored[0] = c.regs[0] := by
  simp [Context.restored]

theorem Context.restored_slot (c : Context) {i : Reg} (h : i ≠ 0) : c.restored[i.val] = c.frame[i.val] := by
  have hne : 0 ≠ i.val := fun h0 => h (Fin.ext h0.symm)
  simp [Context.restored, hne]

theorem State.trapReturn_frame (s : State) : s.trapReturn.ctx.frame = s.ctx.frame := by
  unfold State.trapReturn
  split <;> rfl

theorem State.trapReturn_handled {s : State} (h : s.ctx.response = some .handled) :
    s.trapReturn =
      { s with ctx := { s.ctx with regs := s.ctx.restored, resumePc := s.ctx.resumePc + 4#32, response := none } } := by
  simp [State.trapReturn, h]

theorem State.trapReturn_declined {s : State} (h : s.ctx.response = some .declined) :
    s.trapReturn = { s with ctx := { s.ctx with resumePc := s.onDecline, response := none } } := by
  simp [State.trapReturn, h]

theorem State.trapReturn_fault {s : State} {kind : FaultKind} {a : Word} (h : s.ctx.response = some (.fault kind a)) :
    s.trapReturn = s := by
  simp [State.trapReturn, h]

/-- Settles O40: what every return keeps, then one equation of `trapReturn` for each response. -/
theorem trapReturnFollowsTheResponse : Obligations.TrapReturnFollowsTheResponse := by
  intro s xs hin
  obtain ⟨hresv, -, -, hmem, -, -⟩ := trapReturn_keeps (s.withInputs xs)
  have hframe := (s.withInputs xs).trapReturn_frame
  refine ⟨(s.withInputs xs).trapReturn, step_input hin, hresv, hframe, hmem, fun h => ?_, fun h => ?_, fun kind a h => ?_⟩
  · rw [State.trapReturn_handled (s := s.withInputs xs) h]
    exact ⟨rfl, s.ctx.restored_zero, fun i hi => s.ctx.restored_slot hi⟩
  · rw [State.trapReturn_declined (s := s.withInputs xs) h]
    exact ⟨rfl, rfl⟩
  · rw [State.trapReturn_fault (s := s.withInputs xs) h]
    rfl

end Sys2Proof.Machine
end

/-! ## Exceptions: the frame overlap, the outcomes of a request, trap entry, and the other contexts (R130 to R140) -/

section
namespace Sys2Proof.Machine

/-! ### The in-memory frame (R38, R135 item 2) -/

/-- The two distances of `overlapsFrame` say that one of the four bytes at `a` is one of the 128 from `base`, modulo 2^32. -/
theorem overlapsFrame_iff {s : State} {base : Word} (h : s.ctx.frameCopy = some base) (a : Word) :
    s.overlapsFrame a = true ↔
      ∃ j k : Nat, j < 4 ∧ k < 128 ∧ a + BitVec.ofNat 32 j = base + BitVec.ofNat 32 k := by
  have hdist : s.overlapsFrame a = true ↔ (a - base).toNat < 128 ∨ (base - a).toNat < 4 := by
    simp only [State.overlapsFrame, h, Bool.or_eq_true, decide_eq_true_eq]
    rfl
  rw [hdist]
  constructor
  · rintro (hk | hj)
    · exact ⟨0, (a - base).toNat, by decide, hk, by bv_omega⟩
    · exact ⟨(base - a).toNat, 0, hj, by decide, by bv_omega⟩
  · rintro ⟨j, k, hj, hk, heq⟩
    bv_omega

theorem frameCopy_isSome_of_overlapsFrame {s : State} {a : Word} (h : s.overlapsFrame a = true) :
    s.ctx.frameCopy.isSome = true := by
  cases hc : s.ctx.frameCopy with
  | none => simp [State.overlapsFrame, hc] at h
  | some base => rfl

theorem loadReserved_overlaps {rd rs1 : Reg} {s : State} (ho : s.overlapsFrame (s.x rs1) = true) :
    loadReserved rd rs1 s = .refused (.frameOverlap (s.x rs1)) :=
  if_pos ho

theorem storeConditional_overlaps {rd rs1 rs2 : Reg} {s : State} (ho : s.overlapsFrame (s.x rs1) = true) :
    storeConditional rd rs1 rs2 s = .refused (.frameOverlap (s.x rs1)) :=
  if_pos ho

theorem exec_overlaps {i : Instr} {s : State} (ho : s.overlapsFrame (s.x i.operands.2.1) = true) :
    exec i s = .refused (.frameOverlap (s.x i.operands.2.1)) := by
  rcases exec_shape i with ⟨rd, rs1, rs2, u, rfl, he⟩ | ⟨rd, rs1, rs2, u, rfl, he⟩ | ⟨-, f, rd, rs1, rs2, hops, he⟩ <;> rw [he]
  · exact loadReserved_overlaps ho
  · exact storeConditional_overlaps ho
  · rw [hops] at ho ⊢
    exact amo_overlaps ho

/-! ### Answered requests (R130, R132) -/

/-- The response port shows an outcome, and the address of a fault is that of the last access (R130, R132). -/
def State.Answered (t : State) : Prop :=
  ∃ resp, t.ctx.response = some resp ∧
    ∀ kind a, resp = .fault kind a → ∃ x, t.accesses.getLast? = some x ∧ (x = .read a ∨ ∃ v, x = .write a v)

theorem answered_handled (s : State) : (s.respond .handled).Answered := ⟨.handled, rfl, nofun⟩

theorem answered_declined (s : State) : (s.respond .declined).Answered := ⟨.declined, rfl, nofun⟩

theorem answered_fault (s : State) {x : Access} {a : Word} (kind : FaultKind) (hx : x = .read a ∨ ∃ v, x = .write a v) :
    ((s.issue x).respond (.fault kind a)).Answered := by
  refine ⟨_, rfl, ?_⟩
  rintro _ _ ⟨⟩
  exact ⟨x, List.getLast?_concat, hx⟩

theorem loadReserved_answers {rd rs1 : Reg} {s : State} (ho : s.overlapsFrame (s.x rs1) = false) :
    ∃ t, loadReserved rd rs1 s = .next t ∧ t.Answered := by
  rcases loadReserved_cases rd rs1 s with ⟨ho', -⟩ | ⟨-, kind, -, he⟩ | ⟨-, -, -, he⟩
  · simp [ho] at ho'
  · exact ⟨_, he, answered_fault _ kind (.inl rfl)⟩
  · exact ⟨_, he, answered_handled _⟩

theorem storeConditional_answers {rd rs1 rs2 : Reg} {s : State} (ho : s.overlapsFrame (s.x rs1) = false) :
    ∃ t, storeConditional rd rs1 rs2 s = .next t ∧ t.Answered := by
  rcases storeConditional_cases rd rs1 rs2 s with ⟨ho', -⟩ | ⟨-, -, kind, -, he⟩ | ⟨-, -, -, -, he⟩ | ⟨-, -, he⟩
  · simp [ho] at ho'
  · exact ⟨_, he, answered_fault _ kind (.inr ⟨_, rfl⟩)⟩
  · exact ⟨_, he, answered_handled _⟩
  · exact ⟨_, he, answered_handled _⟩

theorem amo_answers {f : Word → Word → Word} {rd rs1 rs2 : Reg} {s : State} (ho : s.overlapsFrame (s.x rs1) = false) :
    ∃ t, amo f rd rs1 rs2 s = .next t ∧ t.Answered := by
  rcases amo_cases f rd rs1 rs2 s with ⟨ho', -⟩ | ⟨-, kind, -, he⟩ | ⟨-, -, -, -, he⟩ | ⟨-, -, -, -, he⟩
  · simp [ho] at ho'
  · exact ⟨_, he, answered_fault _ kind (.inl rfl)⟩
  · exact ⟨_, he, answered_fault _ .accessFault (.inr ⟨_, rfl⟩)⟩
  · exact ⟨_, he, answered_handled _⟩

/-- Outside the in-memory frame every operation is answered. -/
theorem exec_answers {i : Instr} {s : State} (ho : s.overlapsFrame (s.x i.operands.2.1) = false) :
    ∃ t, exec i s = .next t ∧ t.Answered := by
  rcases exec_shape i with ⟨rd, rs1, rs2, u, rfl, he⟩ | ⟨rd, rs1, rs2, u, rfl, he⟩ | ⟨-, f, rd, rs1, rs2, hops, he⟩ <;> rw [he]
  · exact loadReserved_answers ho
  · exact storeConditional_answers ho
  · rw [hops] at ho
    exact amo_answers ho

/-- Settles O35: `exec_overlaps` and `exec_answers`, the overlap told by bytes. -/
theorem frameOverlapIsRefused : Obligations.FrameOverlapIsRefused := by
  rintro i s base _ hbase rfl
  have hiff := overlapsFrame_iff hbase (s.x i.operands.2.1)
  refine ⟨fun hoverlap => exec_overlaps (hiff.mpr hoverlap), fun hdisjoint => ?_⟩
  have ho : s.overlapsFrame (s.x i.operands.2.1) = false := by
    rw [← Bool.not_eq_true, hiff]
    rintro ⟨j, k, hj, hk, heq⟩
    exact hdisjoint j k hj hk heq
  obtain ⟨t, ht, -⟩ := exec_answers ho
  exact ⟨t, ht⟩

/-! ### Every request is answered or refused (R130, R135) -/

/-- A word is answered, or refused for the in-memory frame. -/
theorem runWord_cases (w : Word) (s : State) :
    (∃ t, runWord w s = .next t ∧ t.Answered) ∨
      ∃ a, s.overlapsFrame a = true ∧ runWord w s = .refused (.frameOverlap a) := by
  cases hw : decodeWord w with
  | error e => exact .inl ⟨_, runWord_error hw s, answered_declined s⟩
  | ok i =>
    rw [runWord_ok hw]
    cases ho : s.overlapsFrame (s.x i.operands.2.1) with
    | false => exact .inl (exec_answers ho)
    | true => exact .inr ⟨_, ho, exec_overlaps ho⟩

/-- R84: a fetch fails at the read that it has issued last. -/
theorem fetch_failed {p b : Word} {kind : FaultKind} {s t : State} (h : fetch p s = .failed kind b t) :
    ∃ u : State, t = u.issue (.read b) := by
  rcases fetch_cases p s with ⟨-, he⟩ | ⟨-, -, he⟩ | ⟨-, -, he⟩ <;> cases he.symm.trans h
  case inl => exact ⟨s, rfl⟩
  case inr.inl => exact ⟨(s.issue (.read (fetchBase p))).drawn (fetchBase p), rfl⟩

/-- An entry is answered, or refused for its odd program counter or for the in-memory frame. -/
theorem runEntry_cases (e : Entry) (s : State) :
    (∃ t, runEntry e s = .next t ∧ t.Answered) ∨
      (∃ p, e = .pc p ∧ p.getLsbD 0 = true ∧ runEntry e s = .refused (.oddPc p)) ∨
      ∃ a, s.overlapsFrame a = true ∧ runEntry e s = .refused (.frameOverlap a) := by
  cases e with
  | word w => exact (runWord_cases w s).imp_right .inr
  | pc p =>
    cases hp : p.getLsbD 0 with
    | true => exact .inr (.inl ⟨p, rfl, hp, runEntry_oddPc hp s⟩)
    | false =>
      cases hf : fetch p s with
      | failed kind b t =>
        obtain ⟨u, rfl⟩ := fetch_failed hf
        exact .inl ⟨_, runEntry_fetchFailed hp hf, answered_fault u kind (.inl rfl)⟩
      | done w t =>
        rw [runEntry_fetched hp hf]
        obtain ⟨hctx, -⟩ := fetch_done hf
        have hcopy : t.ctx.frameCopy = s.ctx.frameCopy := congrArg Context.frameCopy hctx
        refine (runWord_cases w t).imp_right fun ⟨a, ho, hrun⟩ => .inr ⟨a, ?_, hrun⟩
        exact (overlapsFrame_congr hcopy a).symm.trans ho

/-- Settles O9: the contract is checked first, then the entry runs; its response outlives `settle`. -/
theorem everyRequestIsAnsweredOrRefused : Obligations.EveryRequestIsAnsweredOrRefused := by
  intro s r xs hin
  have hstep := step_request hin
  cases hs : s.sharesReservation with
  | true => exact .inr (.inr (.inr (.inr ⟨rfl, hstep.trans (runRequest_shared hs)⟩)))
  | false =>
    by_cases hn : r.nested = []
    · rw [step_request_inContract hin hs hn]
      rcases runEntry_cases r.entry ((s.withInputs xs).accept r) with
        ⟨t, hrun, resp, hresp⟩ | ⟨p, he, hp, hrun⟩ | ⟨a, ho, hrun⟩ <;> rw [hrun]
      · exact .inl ⟨t.settle, resp, rfl, hresp⟩
      · exact .inr (.inl ⟨p, he, hp, rfl⟩)
      · exact .inr (.inr (.inl ⟨a, frameCopy_isSome_of_overlapsFrame ho, rfl⟩))
    · exact .inr (.inr (.inr (.inl ⟨hn, hstep.trans (runRequest_reentry hs hn)⟩)))

/-! ### Taking the trap (R134) -/

/-- Settles O39: `trapEntry` puts the registers into the frame. -/
theorem trapSavesRegistersInTheFrame : Obligations.TrapSavesRegistersInTheFrame := by
  intro s xs regs pc copyAt hin
  exact ⟨(s.withInputs xs).trapEntry regs pc copyAt, step_input hin, fun _ => rfl, rfl, rfl, rfl, rfl⟩

/-! ### The other contexts (R28, R140) -/

/-- The state with `others` as the contexts that do not act. -/
def State.withParked (s : State) (others : List Context) : State := { s with parked := others }

/-- The outcome, with `others` parked in its next state. -/
def outcomeWithParked (others : List Context) : Outcome → Outcome
  | .next t => .next (t.withParked others)
  | .fault f => .fault f
  | .refused why => .refused why

/-- The result of a port operation, with `others` parked in its state. -/
def PortResult.withParked {α : Type} (others : List Context) : PortResult α → PortResult α
  | .done x t => .done x (t.withParked others)
  | .failed kind a t => .failed kind a (t.withParked others)

section
variable (others : List Context)

theorem memRead_withParked (a : Word) (s : State) :
    memRead a (s.withParked others) = (memRead a s).withParked others := by
  rcases memRead_cases a s with ⟨kind, ⟨ha, rfl⟩ | ⟨ha, hv, rfl⟩, he⟩ | ⟨ha, hv, he⟩ <;> rw [he]
  · exact memRead_misaligned a (s.withParked others) ha
  · exact memRead_invalid a (s.withParked others) ha hv
  · exact memRead_valid a (s.withParked others) ha hv

theorem fetch_withParked (p : Word) (s : State) : fetch p (s.withParked others) = (fetch p s).withParked others := by
  rw [fetch, fetch, memRead_withParked]
  cases memRead (fetchBase p) s with
  | failed kind a t => rfl
  | done w0 t =>
    simp only [PortResult.withParked, memRead_withParked]
    cases memRead (fetchBase p + 4#32) t <;> rfl

theorem loadReserved_withParked (rd rs1 : Reg) (s : State) :
    loadReserved rd rs1 (s.withParked others) = outcomeWithParked others (loadReserved rd rs1 s) := by
  rcases loadReserved_cases rd rs1 s with ⟨ho, he⟩ | ⟨ho, kind, hk, he⟩ | ⟨ho, ha, hv, he⟩ <;> rw [he]
  · exact loadReserved_overlaps (s := s.withParked others) ho
  · exact loadReserved_faults (s := s.withParked others) ho hk
  · exact loadReserved_completes (s := s.withParked others) ho ha hv

theorem storeConditional_withParked (rd rs1 rs2 : Reg) (s : State) :
    storeConditional rd rs1 rs2 (s.withParked others) = outcomeWithParked others (storeConditional rd rs1 rs2 s) := by
  rcases storeConditional_cases rd rs1 rs2 s with
    ⟨ho, he⟩ | ⟨ho, hr, kind, hk, he⟩ | ⟨ho, hr, ha, hv, he⟩ | ⟨ho, hr, he⟩ <;> rw [he]
  · exact storeConditional_overlaps (s := s.withParked others) ho
  · exact storeConditional_faults (s := s.withParked others) ho hr hk
  · exact storeConditional_completes (s := s.withParked others) ho hr ha hv
  · exact storeConditional_unmatched (s := s.withParked others) ho hr

theorem amo_withParked (f : Word → Word → Word) (rd rs1 rs2 : Reg) (s : State) :
    amo f rd rs1 rs2 (s.withParked others) = outcomeWithParked others (amo f rd rs1 rs2 s) := by
  rcases amo_cases f rd rs1 rs2 s with ⟨ho, he⟩ | ⟨ho, kind, hk, he⟩ | ⟨ho, ha, hr, hw, he⟩ | ⟨ho, ha, hr, hw, he⟩ <;>
    rw [he]
  · exact amo_overlaps (s := s.withParked others) ho
  · exact amo_readFaults (s := s.withParked others) ho hk
  · exact amo_writeFaults (s := s.withParked others) ho ha hr hw
  · exact amo_completes (s := s.withParked others) ho ha hr hw

theorem runWord_withParked (w : Word) (s : State) :
    runWord w (s.withParked others) = outcomeWithParked others (runWord w s) := by
  cases hw : decodeWord w with
  | error e => rw [runWord_error hw, runWord_error hw]; rfl
  | ok i =>
    rw [runWord_ok hw, runWord_ok hw]
    rcases exec_shape i with ⟨rd, rs1, -, -, -, he⟩ | ⟨rd, rs1, rs2, -, -, he⟩ | ⟨-, f, rd, rs1, rs2, -, he⟩ <;> rw [he, he]
    · exact loadReserved_withParked others rd rs1 s
    · exact storeConditional_withParked others rd rs1 rs2 s
    · exact amo_withParked others f rd rs1 rs2 s

/-- R140: the run of an entry is the same whatever the other contexts are. -/
theorem runEntry_withParked (e : Entry) (s : State) :
    runEntry e (s.withParked others) = outcomeWithParked others (runEntry e s) := by
  cases e with
  | word w => exact runWord_withParked others w s
  | pc p =>
    cases hp : p.getLsbD 0 with
    | true => rw [runEntry_oddPc hp, runEntry_oddPc hp]; rfl
    | false =>
      have hfetch := fetch_withParked others p s
      cases hf : fetch p s with
      | failed kind b t =>
        rw [hf] at hfetch
        rw [runEntry_fetchFailed hp hf, runEntry_fetchFailed hp hfetch]
        rfl
      | done w t =>
        rw [hf] at hfetch
        rw [runEntry_fetched hp hf, runEntry_fetched hp hfetch, runWord_withParked]

end

/-- Settles O42: not written by `runRequest_keeps_contexts`, not read by `runEntry_withParked`. -/
theorem otherContextsAreIsolated : Obligations.OtherContextsAreIsolated := by
  refine ⟨fun s t r xs hin h => ?_, fun e s others => ?_⟩
  · rw [step_request hin] at h
    obtain ⟨-, hparked⟩ := runRequest_keeps_contexts h
    exact hparked
  · have hrun := runEntry_withParked others e s
    exact ⟨fun t ht => hrun.trans (congrArg (outcomeWithParked others) ht),
      fun why hwhy => hrun.trans (congrArg (outcomeWithParked others) hwhy)⟩

end Sys2Proof.Machine
end

/-! ## Reset and the bound on a request's accesses (R150 to R152, R160) -/

section
namespace Sys2Proof.Machine

theorem step_reset {s : State} {xs : List Input} (h : s.inputs = .reset :: xs) :
    step s = .next (s.withInputs xs).free := step_input h

/-- Settles O37: the one context is reset to `Free`, and none is parked. -/
theorem resetStateIsFree : Obligations.ResetStateIsFree := ⟨rfl, rfl, List.forall_mem_nil _⟩

/-- Settles O38: by `step_reset` and `step_idle`. -/
theorem resetInputFreesOnlyTheReservation : Obligations.ResetInputFreesOnlyTheReservation :=
  ⟨fun _ _ hin => step_reset hin, fun _ hidle => step_idle hidle⟩

/-- A request starts the list of accesses anew and adds none once its entry has run, so that what bounds the run of the
entry bounds the list (R46). -/
theorem runRequest_accesses_le {n : Nat} {r : Request} {s t : State}
    (hentry : ∀ u, runEntry r.entry (s.accept r) = .next u → RunKeeps n (s.accept r) u)
    (h : runRequest r s = .next t) : t.accesses.length ≤ n := by
  obtain ⟨u, hrun, rfl⟩ := runRequest_next h
  simpa using (hentry u hrun).accesses

/-- Settles O11: an entry makes at most four accesses by `runEntry_runKeeps`, and a given word, which is not fetched, at
most two by `runWord_runKeeps`. -/
theorem accessesAreBounded : Obligations.AccessesAreBounded := by
  intro s t r xs hin h
  rw [step_request hin] at h
  refine ⟨runRequest_accesses_le (fun _ => runEntry_runKeeps) h, fun w hw => ?_⟩
  refine runRequest_accesses_le (fun u hu => ?_) h
  rw [hw] at hu
  exact runWord_runKeeps hu

end Sys2Proof.Machine
end

/-! ## The encoder and the decoder undo each other (R60 to R64) -/

section
namespace Sys2Proof.Machine

/-- Settles O1: the decoder evaluates on each word. -/
theorem writtenWordsDecode : Obligations.WrittenWordsDecode := ⟨rfl, rfl, rfl, rfl, rfl, rfl, rfl⟩

/-! ### The fields of an assembled word (R60, R62)

A field is read by passing over the fields below it (`BitVec.extractLsb'_append_eq_of_le`). -/

section
variable (sel : BitVec 5) (u : Unexamined) (rs2 rs1 rd : Reg) (opcode : BitVec 7)

@[simp] theorem opcode_assemble : (assemble sel u rs2 rs1 rd opcode).extractLsb' 0 7 = opcode :=
  BitVec.extractLsb'_append_eq_right

@[simp] theorem rdField_assemble : rdField (assemble sel u rs2 rs1 rd opcode) = rd := by
  rw [rdField, assemble, BitVec.extractLsb'_append_eq_of_le (by decide), BitVec.extractLsb'_append_eq_right]

theorem funct3_assemble : (assemble sel u rs2 rs1 rd opcode).extractLsb' 12 3 = u.funct3 := by
  rw [assemble]
  iterate 2 rw [BitVec.extractLsb'_append_eq_of_le (by decide)]
  exact BitVec.extractLsb'_append_eq_right

@[simp] theorem rs1Field_assemble : rs1Field (assemble sel u rs2 rs1 rd opcode) = rs1 := by
  rw [rs1Field, assemble]
  iterate 3 rw [BitVec.extractLsb'_append_eq_of_le (by decide)]
  rw [BitVec.extractLsb'_append_eq_right]

@[simp] theorem rs2Field_assemble : rs2Field (assemble sel u rs2 rs1 rd opcode) = rs2 := by
  rw [rs2Field, assemble]
  iterate 4 rw [BitVec.extractLsb'_append_eq_of_le (by decide)]
  rw [BitVec.extractLsb'_append_eq_right]

@[simp] theorem unexaminedField_assemble : unexaminedField (assemble sel u rs2 rs1 rd opcode) = u := by
  rw [unexaminedField, funct3_assemble]
  simp only [assemble, BitVec.getLsbD_append]
  simp

@[simp] theorem selectorField_assemble : selectorField (assemble sel u rs2 rs1 rd opcode) = sel := by
  rw [selectorField, assemble]
  iterate 7 rw [BitVec.extractLsb'_append_eq_of_le (by decide)]
  exact BitVec.extractLsb'_eq_self

end

theorem ofBool_getLsbD (w : Word) (i : Nat) : BitVec.ofBool (w.getLsbD i) = w.extractLsb' i 1 := by
  ext j hj
  simp [show j = 0 by omega]

/-- The eight fields of R60 leave out no bit of a word: each one stands directly above the next. -/
theorem assemble_fields (w : Word) :
    assemble (selectorField w) (unexaminedField w) (rs2Field w) (rs1Field w) (rdField w) (w.extractLsb' 0 7) = w := by
  simp only [assemble, selectorField, unexaminedField, rs2Field, rs1Field, rdField, BitVec.ofFin_toFin, ofBool_getLsbD,
    BitVec.extractLsb'_append_extractLsb'_eq_extractLsb', BitVec.extractLsb'_eq_self]

/-! ### The rows of the selector map, read by both (R64) -/

/-- The encoder writes for a row of the selector map that row's selector, over the operands. -/
theorem encode_row {row : BitVec 5 × (Reg → Reg → Reg → Unexamined → Instr)} (h : row ∈ selectorMap)
    (rd rs1 rs2 : Reg) (u : Unexamined) :
    encode (row.2 rd rs1 rs2 u) = assemble row.1 u rs2 rs1 rd atomicOpcode := by
  fin_cases h <;> rfl

/-- The selector map has at an instruction's selector the operation that builds it. -/
theorem exists_lookup_selector (i : Instr) : ∃ op, selectorMap.lookup i.selector = some op ∧
    i = op i.operands.1 i.operands.2.1 i.operands.2.2 i.unexamined := by
  cases i <;> exact ⟨_, rfl, rfl⟩

/-! ### The round trips -/

theorem decodeWord_encode (i : Instr) : decodeWord (encode i) = .ok i := by
  obtain ⟨op, hop, hi⟩ := exists_lookup_selector i
  refine (decodeWord_ok_iff _ _).mpr ⟨?_, op, ?_, ?_⟩
  · rw [isAtomic_iff, encode, opcode_assemble, atomicOpcode]
  · rw [encode, selectorField_assemble, hop]
  · simpa [encode] using hi

/-- Four bytes that hold the word of an instruction decode to it, and what follows them is left over. -/
theorem decodeBytes_ok {w : Word} {i : Instr} (h : decodeWord w = .ok i) (rest : List Byte) :
    decodeBytes ([byteOfWord w 0, byteOfWord w 1, byteOfWord w 2, byteOfWord w 3] ++ rest) = .ok (i, rest) := by
  simp [decodeBytes, wordOfBytes_byteOfWord, h]

/-- Settles O4: the decoder finds in an assembled word the fields it was put together from, and the bytes of a word give
it back. -/
theorem decodeOfEncode : Obligations.DecodeOfEncode :=
  fun i rest => ⟨decodeWord_encode i, decodeBytes_ok (decodeWord_encode i) rest⟩

/-- Settles O5: the decoded operation writes its row's selector and the opcode, and the fields of `w` make up `w`. -/
theorem encodeOfDecode : Obligations.EncodeOfDecode := by
  intro w i h
  obtain ⟨ha, op, hs, rfl⟩ := (decodeWord_ok_iff w i).mp h
  rw [encode_row (mem_selectorMap_of_lookup hs), atomicOpcode, ← (isAtomic_iff w).mp ha, assemble_fields]

end Sys2Proof.Machine
end
